-- ==== Sys2Proof/Word.lean ====
section
/-! DEFINITION. The two bit-vector types of the block: the Int32 of operand fields and ALU values (R9, R13), held
as its 32-bit two's-complement pattern, and the byte of the wire record (R13). Cell indices, counts and warrior
handles are no bit vectors: the spec never masks or shifts them (log entry 20). -/

namespace Sys2Proof

/-- An Int32 of the spec (R13): `BitVec.toInt` gives the integer in `[-2^31, 2^31 - 1]`, `BitVec.toNat` gives
`zext_32` of it (R14). -/
abbrev Word := BitVec 32

/-- A byte of the wire record (R13). -/
abbrev Byte := BitVec 8

end Sys2Proof
end

