-- ==== Sys2Proof/Machine/Flags.lean ====
section
/-! DEFINITION. The ALU: 32-bit wrap-around add, equality and signed set-on-less-than (R78, R81, R82). The hardware
has no flags (R28): a comparison acts on the program counter at once, through the instruction's result. -/

namespace Sys2Proof.Machine

/-- `wrap32` (R14): the Int32 congruent to `x` modulo 2^32. -/
def wrap32 (x : Int) : Word := BitVec.ofInt 32 x

/-- `add32` (R78): the exact integer sum, wrapped. -/
def add32 (x y : Word) : Word := wrap32 (x.toInt + y.toInt)

/-- `eq32` (R81). -/
def eq32 (x y : Word) : Bool := decide (x.toInt = y.toInt)

/-- `slt32` (R82): the signed comparison. -/
def slt32 (x y : Word) : Bool := decide (x.toInt < y.toInt)

end Sys2Proof.Machine
end

