-- ==== Sys2Proof/Syntax.lean ====
section
/-! DEFINITION. The Instruction record of R18: one constructor per row of spec/opcode_table.json, each with the
four remaining fields of the record in the order of the wire record's operands. -/

namespace Sys2Proof

/-- The three addressing modes of R19. -/
inductive Mode where
  /-- `#`, R40 -/
  | immediate
  /-- `$`, R41 -/
  | direct
  /-- `@`, R42 -/
  | indirect
deriving DecidableEq, Repr, Inhabited

/-- The six opcodes of R18. -/
inductive Opcode where
  | mov | add | jmp | cmp | slt | dat
deriving DecidableEq, Repr

/-- An Instruction (R18): the constructor is `op`; `ma a mb b` are `amode`, `a`, `bmode` and `b`, written in the
order of the assembly notation `OP <m_a><a>, <m_b><b>` of R75. Every combination is a valid Instruction (R18,
R71). -/
inductive Instr where
  | mov (ma : Mode) (a : Word) (mb : Mode) (b : Word)
  | add (ma : Mode) (a : Word) (mb : Mode) (b : Word)
  | jmp (ma : Mode) (a : Word) (mb : Mode) (b : Word)
  | cmp (ma : Mode) (a : Word) (mb : Mode) (b : Word)
  | slt (ma : Mode) (a : Word) (mb : Mode) (b : Word)
  | dat (ma : Mode) (a : Word) (mb : Mode) (b : Word)
deriving DecidableEq, Repr

end Sys2Proof
end

