-- ==== Sys2Proof/Config.lean ====
section
/-! DEFINITION. What an implementation fixes: the default construction parameters (R7, R8) and the two addressing
modes the spec leaves OPEN for the reset content of the core (R12, D12, U7), as constants with no body: no proof
can depend on their values (log entry 4). -/

namespace Sys2Proof.Config

/-- The default `core_size` of Construct (R7, R113). -/
def defaultCoreSize : Nat := 8000

/-- The default `max_code_size` of Construct (R8, R113). -/
def defaultMaxCodeSize : Nat := 100

/-- `init_a_mode`, OPEN in the spec (R12). -/
opaque initAMode : Mode

/-- `init_b_mode`, OPEN in the spec (R12). -/
opaque initBMode : Mode

end Sys2Proof.Config
end

