-- ==== Sys2Proof/WellFormed.lean ====
section
/-! DEFINITION. The checks the spec makes of data that comes from outside: construction parameters (R29), wire
records (R72) and program placements (R115, R116). An `Instr` itself needs no check: R18 makes every term of it a
valid Instruction, and its type already restricts the modes to the three symbols. -/

namespace Sys2Proof.WellFormed

/-- The legal values of `core_size` and of `max_code_size` (R7, R8, R29). -/
def configValue (v : Int) : Bool := decide (1 ≤ v)

/-- A row of spec/opcode_table.json: the mnemonic, and `match` and `mask` over the 14 record bytes. -/
structure OpcodeRow where
  op : Opcode
  pattern : List Byte
  mask : List Byte
deriving DecidableEq, Repr

/-- A row whose pattern fixes bytes 0 to 3 and leaves the other ten free. -/
def OpcodeRow.ofPrefix (op : Opcode) (b0 b1 b2 b3 : Byte) : OpcodeRow where
  op := op
  pattern := [b0, b1, b2, b3, 0, 0, 0, 0, 0, 0, 0, 0, 0, 0]
  mask := [0xFF, 0xFF, 0xFF, 0xFF, 0, 0, 0, 0, 0, 0, 0, 0, 0, 0]

/-- The opcode table, in its order (R71, opcode_table.json). -/
def opcodeTable : List OpcodeRow :=
  [ .ofPrefix .mov 0x4D 0x4F 0x56 0x00
  , .ofPrefix .add 0x41 0x44 0x44 0x00
  , .ofPrefix .jmp 0x4A 0x4D 0x50 0x00
  , .ofPrefix .cmp 0x43 0x4D 0x50 0x00
  , .ofPrefix .slt 0x53 0x4C 0x54 0x00
  , .ofPrefix .dat 0x44 0x41 0x54 0x00 ]

/-- `(record AND mask) = match` (the table's "format"). -/
def OpcodeRow.admits (row : OpcodeRow) (x : List Byte) : Bool :=
  decide (List.zipWith (· &&& ·) x row.mask = row.pattern)

/-- The legal bytes of an addressing mode (R65). -/
def modeByteLegal (b : Byte) : Bool := b == 0x23 || b == 0x24 || b == 0x40

/-- A record that is not illegal in the sense of R72: 14 bytes that some row of the table admits, with legal mode
bytes at 12 and 13. -/
def recordLegal (x : List Byte) : Bool :=
  decide (x.length = 14) && opcodeTable.any (·.admits x)
    && (x[12]?).any modeByteLegal && (x[13]?).any modeByteLegal

/-- The three placement conditions of `Load` together (R115, R116): `m` is the program's length. -/
def placementLegal (coreSize maxCodeSize : Nat) (address : Int) (m : Nat) : Bool :=
  decide (m < maxCodeSize) && decide (0 ≤ address) && decide (address + m < coreSize)

end Sys2Proof.WellFormed
end

