-- ==== Sys2Proof/Decode.lean ====
section
/-! DEFINITION. The instruction codec (R61 to R74): the decoder, total on any byte sequence and rejecting by name,
the encoder, and their program forms. Both are pure functions with no state (R34). -/

namespace Sys2Proof

/-- The reasons of a `DecodeError` (R88 code 1). Each is raised by the decoder alone and returned to the host; safe,
since nothing is decoded. -/
inductive DecodeReason where
  /-- The record is not 14 bytes long (R67), or the program buffer no multiple of 14 (R69). -/
  | badLength
  /-- Bytes 0 to 2 are none of the six mnemonics (R62, R67). -/
  | unknownOpcode
  /-- Byte 3 is not zero (R63). -/
  | nonzeroPadding
  /-- Byte 12 is no mode character (R65). -/
  | badAMode
  /-- Byte 13 is no mode character (R65). -/
  | badBMode
deriving DecidableEq, Repr

/-- A `DecodeError` with the information it records (R88): the reason and, for a program, the record index (R69). A
whole-buffer `badLength` concerns no record (log entry 12). -/
structure DecodeError where
  reason : DecodeReason
  record : Option Nat
deriving DecidableEq, Repr

/-- The six opcodes, in the order of the opcode table. -/
def Opcode.all : List Opcode := [.mov, .add, .jmp, .cmp, .slt, .dat]

/-- The three ASCII letters of a mnemonic (R62). -/
def Opcode.ascii : Opcode → List Byte
  | .mov => [0x4D, 0x4F, 0x56]
  | .add => [0x41, 0x44, 0x44]
  | .jmp => [0x4A, 0x4D, 0x50]
  | .cmp => [0x43, 0x4D, 0x50]
  | .slt => [0x53, 0x4C, 0x54]
  | .dat => [0x44, 0x41, 0x54]

/-- The opcode whose letters are exactly these three bytes (R62: exact and case-sensitive). -/
def opcodeOfBytes (o0 o1 o2 : Byte) : Option Opcode :=
  Opcode.all.find? fun op => decide (op.ascii = [o0, o1, o2])

/-- The ASCII character of an addressing mode (R65). -/
def modeByte : Mode → Byte
  | .immediate => 0x23
  | .direct => 0x24
  | .indirect => 0x40

/-- The addressing mode of a mode byte, if it is one (R65). -/
def modeOfByte (b : Byte) : Option Mode :=
  if b = 0x23 then some .immediate
  else if b = 0x24 then some .direct
  else if b = 0x40 then some .indirect
  else none

/-- `le32` of R66: the four bytes of a field, least significant first (R64). -/
def le32 (u : Word) : List Byte :=
  [u.extractLsb' 0 8, u.extractLsb' 8 8, u.extractLsb' 16 8, u.extractLsb' 24 8]

/-- The field that four little-endian bytes hold (R64); `BitVec.toInt` of the result is the `sext_32` of R67. -/
def wordOfBytes (b0 b1 b2 b3 : Byte) : Word :=
  BitVec.ofNat 32 (b0.toNat + 256 * b1.toNat + 65536 * b2.toNat + 16777216 * b3.toNat)

/-- The field `op` of an Instruction (R18). -/
def Instr.op : Instr → Opcode
  | .mov .. => .mov
  | .add .. => .add
  | .jmp .. => .jmp
  | .cmp .. => .cmp
  | .slt .. => .slt
  | .dat .. => .dat

/-- The field `amode` of an Instruction (R18). -/
def Instr.amode : Instr → Mode
  | .mov ma _ _ _ | .add ma _ _ _ | .jmp ma _ _ _ | .cmp ma _ _ _ | .slt ma _ _ _ | .dat ma _ _ _ => ma

/-- The field `a` of an Instruction (R18). -/
def Instr.a : Instr → Word
  | .mov _ a _ _ | .add _ a _ _ | .jmp _ a _ _ | .cmp _ a _ _ | .slt _ a _ _ | .dat _ a _ _ => a

/-- The field `bmode` of an Instruction (R18). -/
def Instr.bmode : Instr → Mode
  | .mov _ _ mb _ | .add _ _ mb _ | .jmp _ _ mb _ | .cmp _ _ mb _ | .slt _ _ mb _ | .dat _ _ mb _ => mb

/-- The field `b` of an Instruction (R18). -/
def Instr.b : Instr → Word
  | .mov _ _ _ b | .add _ _ _ b | .jmp _ _ _ b | .cmp _ _ _ b | .slt _ _ _ b | .dat _ _ _ b => b

/-- The Instruction with its B-field replaced and the other four fields kept (R47). -/
def Instr.withB (i : Instr) (v : Word) : Instr :=
  match i with
  | .mov ma a mb _ => .mov ma a mb v
  | .add ma a mb _ => .add ma a mb v
  | .jmp ma a mb _ => .jmp ma a mb v
  | .cmp ma a mb _ => .cmp ma a mb v
  | .slt ma a mb _ => .slt ma a mb v
  | .dat ma a mb _ => .dat ma a mb v

/-- `Instruction(op, a, b, amode, bmode)` of R67. -/
def Instr.make (op : Opcode) (a b : Word) (ma mb : Mode) : Instr :=
  match op with
  | .mov => .mov ma a mb b
  | .add => .add ma a mb b
  | .jmp => .jmp ma a mb b
  | .cmp => .cmp ma a mb b
  | .slt => .slt ma a mb b
  | .dat => .dat ma a mb b

/-- `Decode` (R67): the checks in the order the rule gives them. -/
def decode : List Byte → Except DecodeReason Instr
  | [o0, o1, o2, pad, a0, a1, a2, a3, b0, b1, b2, b3, ma, mb] =>
    match opcodeOfBytes o0 o1 o2 with
    | none => .error .unknownOpcode
    | some op =>
      if pad ≠ 0x00 then .error .nonzeroPadding
      else
        match modeOfByte ma with
        | none => .error .badAMode
        | some amode =>
          match modeOfByte mb with
          | none => .error .badBMode
          | some bmode => .ok (.make op (wordOfBytes a0 a1 a2 a3) (wordOfBytes b0 b1 b2 b3) amode bmode)
  | _ => .error .badLength

/-- The records of a program buffer, decoded in order from record `k` on (R69). -/
def decodeRecords (k : Nat) : Nat → List Byte → Except DecodeError (List Instr)
  | 0, _ => .ok []
  | n + 1, x =>
    match decode (x.take 14) with
    | .error r => .error ⟨r, some k⟩
    | .ok i =>
      match decodeRecords (k + 1) n (x.drop 14) with
      | .error e => .error e
      | .ok p => .ok (i :: p)

/-- `DecodeProgram` (R69). -/
def decodeProgram (x : List Byte) : Except DecodeError (List Instr) :=
  if x.length % 14 ≠ 0 then .error ⟨.badLength, none⟩
  else decodeRecords 0 (x.length / 14) x

/-- The 14 bytes of a record as a number, bit `8k + j` being bit `j` of byte `k` (R61): the numbering of
spec/opcode_table.json's rows. -/
def recordOfNat (w : Nat) : List Byte :=
  (List.range 14).map fun k => BitVec.ofNat 8 (w / 2 ^ (8 * k))

/-- The instruction the decoder reads from the record whose low `nbits` bits are those of `w` and whose other bits
are zero. -/
def decodeTableWord (nbits w : Nat) : Option Instr :=
  (decode (recordOfNat (w % 2 ^ nbits))).toOption

/-- `Encode` (R66), total on Instructions. -/
def encode (i : Instr) : List Byte :=
  i.op.ascii ++ [0x00] ++ le32 i.a ++ le32 i.b ++ [modeByte i.amode] ++ [modeByte i.bmode]

/-- `EncodeProgram` (R68). -/
def encodeProgram (p : List Instr) : List Byte := p.flatMap encode

/-- The mnemonic of an opcode as R75 writes it. -/
def Opcode.mnemonic : Opcode → String
  | .mov => "MOV"
  | .add => "ADD"
  | .jmp => "JMP"
  | .cmp => "CMP"
  | .slt => "SLT"
  | .dat => "DAT"

/-- The mode character as R75 writes it. -/
def Mode.symbol : Mode → String
  | .immediate => "#"
  | .direct => "$"
  | .indirect => "@"

/-- The instruction as R75 writes it: `OP <m_a><a>, <m_b><b>`, both modes always written and both values decimal. No
rule reads this text. -/
def Instr.assembly (i : Instr) : String :=
  i.op.mnemonic ++ " " ++ i.amode.symbol ++ toString i.a.toInt ++ ", " ++ i.bmode.symbol ++ toString i.b.toInt

end Sys2Proof
end

