-- ==== Sys2Proof/Machine/State.lean ====
section
/-! DEFINITION. The state of the block as plain data (10_state.md): the core, the warrior table, the configuration
and status bits, the position of a Run in progress; beside them the host's side of the interface (R6), which is the
model's own (log entry 2). Also the outcomes of an instruction (R76), the signals (R88) and the host's transactions. -/

namespace Sys2Proof.Machine

/-- The core (R20): `size` cells, addressed 0 to `size - 1` (R36). Only cells that differ from the reset cell
`DAT 0,0` are listed, by strictly rising index (log entry 5); every other cell reads as `DAT 0,0` with the modes
`initAMode` and `initBMode` (R12, R35). -/
structure Memory where
  /-- `CORE_SIZE` (R29) -/
  size : Nat
  /-- `init_a_mode` (R12) -/
  initAMode : Mode
  /-- `init_b_mode` (R12) -/
  initBMode : Mode
  /-- the listed cells: index and content -/
  cells : List (Nat × Instr)
deriving DecidableEq, Repr

/-- A warrior record (R22). `address` is its program counter (R26). -/
structure Warrior where
  name : String
  address : Nat
  alive : Bool
deriving DecidableEq, Repr

/-- The position of a Run in progress (R33, R103): the ticks still to run, the current one among them, and the
warrior whose turn is next in the current tick. -/
structure RunPos where
  ticksLeft : Nat
  k : Nat
deriving DecidableEq, Repr

/-- The result of one instruction (R76). -/
inductive Result where
  /-- the program counter moves on by one cell -/
  | next
  /-- the program counter moves on by two cells -/
  | skip
  /-- the program counter is set to cell `t` -/
  | jump (t : Nat)
  /-- the executing warrior dies -/
  | eliminate
deriving DecidableEq, Repr

/-- The reasons of a `PlacementError` (R88 code 2, R115). -/
inductive PlacementReason where
  | programTooLong | negativeAddress | pastEndOfCore
deriving DecidableEq, Repr

/-- Which parameter a `BadConfig` concerns (R88 code 7). -/
inductive ConfigParameter where
  | coreSize | maxCodeSize
deriving DecidableEq, Repr

/-- The errors and signals of the block with the information they record (R88). They are values returned to the
host (the elimination signal excepted, which never leaves a Run, R91), no faults of the machine: safe. -/
inductive Signal where
  /-- code 1, by `Decode` and `DecodeProgram` -/
  | decodeError (e : DecodeError)
  /-- code 2, by `Load` -/
  | placementError (reason : PlacementReason)
  /-- code 3, by DAT inside a Run; never reaches the host -/
  | eliminationSignal (k : Nat)
  /-- code 4, by `Run`: the elimination of warrior `k` left none alive -/
  | fatalDrawError (k : Nat)
  /-- code 5, by `Load` -/
  | loadAfterRun
  /-- code 6, by `Load` and `Run` -/
  | engineFaulted
  /-- code 7, by `Construct` -/
  | badConfig (which : ConfigParameter)
deriving DecidableEq, Repr

/-- The match status of R31: computed, never stored. -/
inductive MatchStatus where
  | fatal | won | running
deriving DecidableEq, Repr

/-- What `Observe` shows the host (R6, R30, R31, R32): the whole core, the warrior table, the configuration, the
two status bits and the match status. -/
structure Observation where
  core : List Instr
  maxCodeSize : Nat
  warriors : List Warrior
  started : Bool
  faulted : Bool
  status : MatchStatus
deriving DecidableEq, Repr

/-- A host transaction on an existing engine (R6). `Construct` is none: it makes a new engine (R113). -/
inductive Request where
  | load (name : String) (address : Int) (program : List Instr)
  | run (stepBudget : Int)
  | encode (i : Instr)
  | decode (x : List Byte)
  | encodeProgram (p : List Instr)
  | decodeProgram (x : List Byte)
  | observe
deriving DecidableEq, Repr

/-- What a transaction returns to the host. -/
inductive Response where
  /-- the handle of the registered warrior (R118) -/
  | loaded (handle : Nat)
  /-- the handle of the winner (R97) -/
  | winner (handle : Nat)
  /-- R99 -/
  | noWinner
  | encoded (x : List Byte)
  | decoded (i : Instr)
  | decodedProgram (p : List Instr)
  | observed (o : Observation)
  /-- the transaction was ended by `raise` (R89) -/
  | error (e : Signal)
deriving DecidableEq, Repr

/-- The state of the block. `requests` and `response` are the model's own (log entry 2); everything else is the
spec's (10_state.md R20 to R33). -/
structure State where
  /-- the core, with `CORE_SIZE` and the reset modes (R20, R29, R12) -/
  core : Memory
  /-- `MAX_CODE_SIZE` (R29) -/
  maxCodeSize : Nat
  /-- the warrior table in registration order (R23) -/
  warriors : List Warrior
  /-- `STARTED` (R30) -/
  started : Bool
  /-- `FAULTED` (R30) -/
  faulted : Bool
  /-- the position of the Run in progress, if there is one (R33) -/
  run : Option RunPos
  /-- the model's own: the transactions the host has issued and that have not begun, oldest first -/
  requests : List Request
  /-- the model's own: what the last completed transaction returned, `none` while a Run is in progress -/
  response : Option Response
deriving DecidableEq, Repr

/-- What stops the machine. Neither case is the spec's (R90: no instruction raises an error, R54: no access can
fault); no `step` of a well-formed state answers with either (log entry 19). -/
inductive Fault where
  /-- Raised by a meaning when no warrior has a turn in progress to execute it for; safe (log entry 19). -/
  | noTurn
  /-- Raised by a meaning and by the fetch when the executing warrior's address is no cell of the core (R26, R36
  exclude it); safe (log entry 19). -/
  | noSuchCell (address : Nat)
deriving DecidableEq, Repr

/-- What the machine refuses. -/
inductive Refusal where
  /-- Raised by an arm of `exec` whose instruction has no meaning yet; safe. No arm does: every instruction has its
  meaning. -/
  | notModelled (mnemonic : String)
deriving DecidableEq, Repr

/-- The engine right after a `Construct` that succeeds (R35, R113), with the host's side of the interface empty
(log entry 22). -/
def State.initial (initAMode initBMode : Mode) (coreSize maxCodeSize : Nat) : State where
  core := { size := coreSize, initAMode := initAMode, initBMode := initBMode, cells := [] }
  maxCodeSize := maxCodeSize
  warriors := []
  started := false
  faulted := false
  run := none
  requests := []
  response := none

/-- The machine right after reset: `Construct` with its default arguments (R113, log entry 7); the modes of the
reset cells are the open parameters of R12. -/
def State.reset : State :=
  State.initial Config.initAMode Config.initBMode Config.defaultCoreSize Config.defaultMaxCodeSize

end Sys2Proof.Machine
end

