-- ==== Sys2Proof/Machine/Ops.lean ====
section
/-! DEFINITION. The named operations over the core, the warrior table and the Run in progress: index arithmetic
(R15, R37, R38), the four kinds of core access (R52), the update of a warrior by an instruction's result (R94), and
elimination (R91, R97, R98), the block's only trap-like event. -/

namespace Sys2Proof.Machine

/-! ### Index arithmetic -/

/-- `norm` (R15): the Euclidean remainder of an exact integer by the core's size. -/
def Memory.norm (m : Memory) (x : Int) : Nat := (x % (m.size : Int)).toNat

/-- `view(base, off)` (R38): the exact sum, reduced once (R37). -/
def Memory.view (m : Memory) (base : Nat) (off : Int) : Nat := m.norm ((base : Int) + off)

/-! ### The core -/

/-- The reset cell `DAT 0,0` (R35, R12): what every unlisted cell reads as. -/
def Memory.blank (m : Memory) : Instr := .dat m.initAMode 0 m.initBMode 0

/-- Whether a content is the reset cell, its fields compared before the open modes. -/
def Memory.isBlank (m : Memory) (c : Instr) : Bool :=
  match c with
  | .dat ma a mb b => a == 0 && b == 0 && ma == m.initAMode && mb == m.initBMode
  | _ => false

/-- The content listed for a cell. -/
def lookupCell (i : Nat) : List (Nat × Instr) → Option Instr
  | [] => none
  | (j, c) :: t => if j = i then some c else lookupCell i t

/-- The list with cell `i` listed as `c`, in rising order. -/
def insertCell (i : Nat) (c : Instr) : List (Nat × Instr) → List (Nat × Instr)
  | [] => [(i, c)]
  | (j, d) :: t =>
    if i < j then (i, c) :: (j, d) :: t
    else if i = j then (i, c) :: t
    else (j, d) :: insertCell i c t

/-- The list with cell `i` no longer listed. -/
def eraseCell (i : Nat) : List (Nat × Instr) → List (Nat × Instr)
  | [] => []
  | (j, d) :: t => if i = j then t else (j, d) :: eraseCell i t

/-- `MemRead(i, 1)` (R16, R52): a copy of the whole cell. Used for indices below `size` only. -/
def Memory.read (m : Memory) (i : Nat) : Instr := (lookupCell i m.cells).getD m.blank

/-- `MemWrite(i, 1, c)` (R16, R52): replaces the whole cell. Used for indices below `size` only. -/
def Memory.write (m : Memory) (i : Nat) (c : Instr) : Memory :=
  { m with cells := if m.isBlank c then eraseCell i m.cells else insertCell i c m.cells }

/-- `MemReadB(i)` (R16, R52). -/
def Memory.readB (m : Memory) (i : Nat) : Word := (m.read i).b

/-- `MemWriteB(i, v)` (R16, R52): a read-modify-write of the one cell (R58). -/
def Memory.writeB (m : Memory) (i : Nat) (v : Word) : Memory := m.write i ((m.read i).withB v)

/-- Strictly rising indices, all below `bound` and none below `low`. -/
def risingFrom (low bound : Nat) : List (Nat × Instr) → Bool
  | [] => true
  | (j, _) :: t => decide (low ≤ j) && decide (j < bound) && risingFrom (j + 1) bound t

/-- The canonical form of the core (log entry 5): at least one cell (R7), the listed indices strictly rising and
inside the core, and no listed cell equal to the reset cell. -/
def Memory.wf (m : Memory) : Bool :=
  decide (1 ≤ m.size) && risingFrom 0 m.size m.cells && m.cells.all fun c => !m.isBlank c.2

/-! ### The warrior table -/

/-- The table with record `k` replaced. -/
def State.setWarrior (s : State) (k : Nat) (w : Warrior) : State :=
  { s with warriors := s.warriors.set k w }

/-- `number of j with w[j].alive` (R95). -/
def State.liveCount (s : State) : Nat := s.warriors.countP (·.alive)

/-- `the j with w[j].alive` (R95), for the case that there is one. -/
def State.survivor (s : State) : Nat := s.warriors.findIdx (·.alive)

/-- The match status (R31). -/
def State.matchStatus (s : State) : MatchStatus :=
  if s.faulted then .fatal else if s.liveCount = 1 then .won else .running

/-! ### The end of a Run, and elimination -/

/-- A Run returns to the host: its position does not survive it (R33). -/
def State.finishRun (s : State) (r : Response) : State :=
  { s with run := none, response := some r }

/-- The signal an instruction's result is, if any: `Eliminate` is the `EliminationSignal` of the executing warrior
(R86, R88 code 3). -/
def Result.signal (k : Nat) : Result → Option Signal
  | .eliminate => some (.eliminationSignal k)
  | _ => none

/-- The cause codes of R88 (D22). -/
def Signal.code : Signal → Nat
  | .decodeError _ => 1
  | .placementError _ => 2
  | .eliminationSignal _ => 3
  | .fatalDrawError _ => 4
  | .loadAfterRun => 5
  | .engineFaulted => 6
  | .badConfig _ => 7

/-- The termination check after an elimination of warrior `k` (R95): one warrior left wins (R97), none left is the
fatal draw (R98), and otherwise the Run goes on. -/
def State.checkTermination (s : State) (k : Nat) : State :=
  if s.liveCount = 1 then s.finishRun (.winner s.survivor)
  else if s.liveCount = 0 then { s with faulted := true }.finishRun (.error (.fatalDrawError k))
  else s

/-- Elimination of warrior `k`, whose record is `w` (R91): `alive` becomes false, the address stays, the core stays,
nothing is saved; then the termination check. There is no return from it (R92). -/
def State.eliminate (s : State) (k : Nat) (w : Warrior) : State :=
  (s.setWarrior k { w with alive := false }).checkTermination k

/-- The update of warrior `k`, whose record is `w`, by the result of its turn (R94). -/
def State.applyResult (s : State) (k : Nat) (w : Warrior) : Result → State
  | .next => s.setWarrior k { w with address := s.core.norm ((w.address : Int) + 1) }
  | .skip => s.setWarrior k { w with address := s.core.norm ((w.address : Int) + 2) }
  | .jump t => s.setWarrior k { w with address := t }
  | .eliminate => s.eliminate k w

/-! ### A turn -/

/-- The warrior whose turn it is, with its index: the living warrior at the position of the Run (R93, R95). -/
def State.turn (s : State) : Option (Nat × Warrior) :=
  match s.run with
  | none => none
  | some r =>
    match s.warriors[r.k]? with
    | none => none
    | some w => if w.alive then some (r.k, w) else none

/-- The turn of the warrior whose turn it is, running an instruction whose `Execute` (R76) is `f`, a function of the
core and the base (R38, R93): the core it leaves, then the result applied to the warrior. -/
def State.takeTurn (s : State) (f : Memory → Nat → Memory × Result) : Host.Outcome State Fault Refusal :=
  match s.turn with
  | none => .fault .noTurn
  | some (k, w) =>
    if w.address < s.core.size then
      .next ({ s with core := (f s.core w.address).1 }.applyResult k w (f s.core w.address).2)
    else .fault (.noSuchCell w.address)

end Sys2Proof.Machine
end

