-- ==== Sys2Proof/Machine/Operands.lean ====
section
/-! DEFINITION. The circular memory view (20_memory.md): how an operand and its mode become a literal or a cell
(R39 to R42), and the read and write primitives of the instructions (R44 to R47). -/

namespace Sys2Proof.Machine

/-- A resolved operand (R39). -/
inductive Operand where
  /-- a literal that refers to no cell -/
  | imm (v : Word)
  /-- a cell of the core -/
  | cell (i : Nat)
deriving DecidableEq, Repr

/-- `Resolve` (R39): immediate (R40), direct (R41), and indirect (R42), whose pointer is the B-field of the direct
cell, taken from the base. -/
def resolve (m : Memory) (base : Nat) (mode : Mode) (v : Word) : Operand :=
  match mode with
  | .immediate => .imm v
  | .direct => .cell (m.view base v.toInt)
  | .indirect => .cell (m.view base (m.readB (m.view base v.toInt)).toInt)

/-- `ValueRead` (R44): the literal, or the B-field of the addressed cell. -/
def valueRead (m : Memory) : Operand → Word
  | .imm v => v
  | .cell i => m.readB i

/-- `WriteCell` (R46): the whole cell; no effect through a literal. -/
def writeCell (m : Memory) (r : Operand) (c : Instr) : Memory :=
  match r with
  | .imm _ => m
  | .cell i => m.write i c

/-- `WriteB` (R47): the B-field alone; no effect through a literal. -/
def writeB (m : Memory) (r : Operand) (x : Word) : Memory :=
  match r with
  | .imm _ => m
  | .cell i => m.writeB i x

end Sys2Proof.Machine
end

