-- ==== Sys2Proof/Machine/Control.lean ====
section
/-! DEFINITION. The instructions that act on the program counter (41_control.md): JMP (R83), CMP (R84) and SLT
(R85). None writes the core. -/

namespace Sys2Proof.Machine

/-- The cell JMP goes to (R83): the cell operand A resolves to, a literal being taken as an offset from the base. -/
def jumpTarget (m : Memory) (base : Nat) (ma : Mode) (a : Word) : Nat :=
  match resolve m base ma a with
  | .imm v => m.view base v.toInt
  | .cell t => t

/-- `JMP(inst, core, base)` (R83): operand B is not resolved. -/
def jmpEffect (ma : Mode) (a : Word) (m : Memory) (base : Nat) : Memory × Result :=
  (m, .jump (jumpTarget m base ma a))

/-- `CMP(inst, core, base)` (R84). -/
def cmpEffect (ma : Mode) (a : Word) (mb : Mode) (b : Word) (m : Memory) (base : Nat) : Memory × Result :=
  (m, if eq32 (valueRead m (resolve m base ma a)) (valueRead m (resolve m base mb b)) then .skip else .next)

/-- `SLT(inst, core, base)` (R85). -/
def sltEffect (ma : Mode) (a : Word) (mb : Mode) (b : Word) (m : Memory) (base : Nat) : Memory × Result :=
  (m, if slt32 (valueRead m (resolve m base ma a)) (valueRead m (resolve m base mb b)) then .skip else .next)

/-- JMP in the turn of the executing warrior (R83, R93). The two unused arguments are operand B, which has no effect
(R83). -/
def execJmp (ma : Mode) (a : Word) (_mb : Mode) (_b : Word) (s : State) : Host.Outcome State Fault Refusal :=
  s.takeTurn (jmpEffect ma a)

/-- CMP in the turn of the executing warrior (R84, R93). -/
def execCmp (ma : Mode) (a : Word) (mb : Mode) (b : Word) (s : State) : Host.Outcome State Fault Refusal :=
  s.takeTurn (cmpEffect ma a mb b)

/-- SLT in the turn of the executing warrior (R85, R93). -/
def execSlt (ma : Mode) (a : Word) (mb : Mode) (b : Word) (s : State) : Host.Outcome State Fault Refusal :=
  s.takeTurn (sltEffect ma a mb b)

end Sys2Proof.Machine
end

