-- ==== Sys2Proof/Machine/Dat.lean ====
section
/-! DEFINITION. DAT (42_dat.md R86), which eliminates the executing warrior whatever its operands are. -/

namespace Sys2Proof.Machine

/-- `DAT(inst, core, base)` (R86): no core write, no operand read. -/
def datEffect (m : Memory) (_base : Nat) : Memory × Result := (m, .eliminate)

/-- DAT in the turn of the executing warrior (R86, R91, R93). The unused arguments are its operands, which are
neither resolved nor read (R86). -/
def execDat (_ma : Mode) (_a : Word) (_mb : Mode) (_b : Word) (s : State) : Host.Outcome State Fault Refusal :=
  s.takeTurn datEffect

end Sys2Proof.Machine
end

