-- ==== Sys2Proof/Machine/MovAdd.lean ====
section
/-! DEFINITION. The two instructions that write the core (40_mov_add.md): MOV (R79) and ADD (R80). -/

namespace Sys2Proof.Machine

/-- `MOV(inst, core, base)` (R79): a literal goes into the B-field of the target, a cell is copied whole. -/
def movEffect (ma : Mode) (a : Word) (mb : Mode) (b : Word) (m : Memory) (base : Nat) : Memory × Result :=
  let rB := resolve m base mb b
  match resolve m base ma a with
  | .imm v => (writeB m rB v, .next)
  | .cell i => (writeCell m rB (m.read i), .next)

/-- `ADD(inst, core, base)` (R80): the wrapped sum of the two values goes into the B-field of the target. -/
def addEffect (ma : Mode) (a : Word) (mb : Mode) (b : Word) (m : Memory) (base : Nat) : Memory × Result :=
  let rA := resolve m base ma a
  let rB := resolve m base mb b
  (writeB m rB (add32 (valueRead m rA) (valueRead m rB)), .next)

/-- MOV in the turn of the executing warrior (R79, R93). -/
def execMov (ma : Mode) (a : Word) (mb : Mode) (b : Word) (s : State) : Host.Outcome State Fault Refusal :=
  s.takeTurn (movEffect ma a mb b)

/-- ADD in the turn of the executing warrior (R80, R93). -/
def execAdd (ma : Mode) (a : Word) (mb : Mode) (b : Word) (s : State) : Host.Outcome State Fault Refusal :=
  s.takeTurn (addEffect ma a mb b)

end Sys2Proof.Machine
end

