-- ==== Sys2Proof/Machine/Dispatch.lean ====
section
/-! DEFINITION. `Execute`'s dispatch (R77): one arm per opcode, no default arm. -/

namespace Sys2Proof.Machine

-- The instruction executed is the one the scheduler fetched; the state says whose turn it is (R93).
def exec (i : Instr) (s : State) : Host.Outcome State Fault Refusal :=
  match i with
  | .mov ma a mb b => Sys2Proof.Machine.execMov ma a mb b s
  | .add ma a mb b => Sys2Proof.Machine.execAdd ma a mb b s
  | .jmp ma a mb b => Sys2Proof.Machine.execJmp ma a mb b s
  | .cmp ma a mb b => Sys2Proof.Machine.execCmp ma a mb b s
  | .slt ma a mb b => Sys2Proof.Machine.execSlt ma a mb b s
  | .dat ma a mb b => Sys2Proof.Machine.execDat ma a mb b s

end Sys2Proof.Machine
end

