-- ==== Sys2Proof/Machine/Scheduler.lean ====
section
/-! DEFINITION. The round-robin scheduler as a small-step machine (R103): what it finds at its position, and how the
position moves on (R95, R96). -/

namespace Sys2Proof.Machine

/-- What the next step has to do. -/
inductive Slot where
  /-- no Run is in progress -/
  | idle
  /-- the position holds no living warrior: a dead one (R96), or an empty table (log entry 1) -/
  | skip
  /-- a turn, of which `i` is the fetched instruction (R93) -/
  | turn (i : Instr)
  /-- the warrior's address is no cell of the core (log entry 19) -/
  | noCell (address : Nat)
deriving DecidableEq, Repr

/-- The scheduler's view of the state; for a living warrior with the fetch `core[w[k].address]` (R93, R45). -/
def State.slot (s : State) : Slot :=
  match s.run with
  | none => .idle
  | some _ =>
    match s.turn with
    | none => .skip
    | some (_, w) => if w.address < s.core.size then .turn (s.core.read w.address) else .noCell w.address

/-- The position moves on after a turn or a skip (R103): to the next warrior; past the last one the tick ends, and
after the last tick the Run returns `NoWinner` (R99). Nothing moves if the turn has ended the Run (R97, R98). -/
def State.advance (s : State) : State :=
  match s.run with
  | none => s
  | some r =>
    if r.k + 1 < s.warriors.length then { s with run := some { r with k := r.k + 1 } }
    else if 1 < r.ticksLeft then { s with run := some { ticksLeft := r.ticksLeft - 1, k := 0 } }
    else s.finishRun .noWinner

/-- The outcome of a turn with the scheduler's position moved on. -/
def advanceOutcome : Host.Outcome State Fault Refusal → Host.Outcome State Fault Refusal
  | .next t => .next t.advance
  | .fault f => .fault f
  | .refused r => .refused r

end Sys2Proof.Machine
end

