-- ==== Sys2Proof/Machine/Transactions.lean ====
section
/-! DEFINITION. The host's transactions (R6): Construct (R113), Load (R115 to R121), the start of a Run (R95), Encode
and Decode (R66 to R69) and Observe; and how the step serves the oldest one while no Run is in progress (log entries
2, 3 and 25). -/

namespace Sys2Proof.Machine

/-- `Construct` (R113): a new engine, or `BadConfig` naming the first parameter that is not at least 1. The open
modes of the reset cell are arguments (R12). -/
def State.construct (initAMode initBMode : Mode) (coreSize : Int := Config.defaultCoreSize)
    (maxCodeSize : Int := Config.defaultMaxCodeSize) : Except Signal State :=
  if !WellFormed.configValue coreSize then .error (.badConfig .coreSize)
  else if !WellFormed.configValue maxCodeSize then .error (.badConfig .maxCodeSize)
  else .ok (State.initial initAMode initBMode coreSize.toNat maxCodeSize.toNat)

/-- The error of the first precondition of `Load` that fails, if one does (R115, R116, R120, R101). -/
def State.loadError (s : State) (address : Int) (program : List Instr) : Option Signal :=
  if s.faulted then some .engineFaulted
  else if s.started then some .loadAfterRun
  else if ¬ program.length < s.maxCodeSize then some (.placementError .programTooLong)
  else if ¬ 0 ≤ address then some (.placementError .negativeAddress)
  else if ¬ address + program.length < s.core.size then some (.placementError .pastEndOfCore)
  else none

/-- The program written one instruction per cell from `i` upwards (R117). -/
def Memory.writeProgram (m : Memory) (i : Nat) : List Instr → Memory
  | [] => m
  | c :: p => (m.write i c).writeProgram (i + 1) p

/-- A `Load` that passes every check (R117, R118): the program into the core, a living warrior appended, its index
returned as the handle. -/
def State.register (s : State) (name : String) (address : Nat) (program : List Instr) : State :=
  { s with
    core := s.core.writeProgram address program
    warriors := s.warriors ++ [{ name := name, address := address, alive := true }]
    response := some (.loaded s.warriors.length) }

/-- A transaction that changes nothing of the block and returns `r`. -/
def State.respond (s : State) (r : Response) : State := { s with response := some r }

/-- `Load` (R115). -/
def State.load (s : State) (name : String) (address : Int) (program : List Instr) : State :=
  match s.loadError address program with
  | some e => s.respond (.error e)
  | none => s.register name address.toNat program

/-- `Run` up to its first tick (R95): refused when faulted (R101), else `STARTED` is set, and a budget of no tick
returns `NoWinner` at once (R99). -/
def State.startRun (s : State) (stepBudget : Int) : State :=
  if s.faulted then s.respond (.error .engineFaulted)
  else
    let s' := { s with started := true }
    if stepBudget ≤ 0 then s'.finishRun .noWinner
    else { s' with run := some { ticksLeft := stepBudget.toNat, k := 0 }, response := none }

/-- What `Observe` shows (R6, R30, R31, R32). -/
def State.observe (s : State) : Observation where
  core := (List.range s.core.size).map s.core.read
  maxCodeSize := s.maxCodeSize
  warriors := s.warriors
  started := s.started
  faulted := s.faulted
  status := s.matchStatus

/-- The response to `Decode` (R67). -/
def decodeResponse (x : List Byte) : Response :=
  match decode x with
  | .ok i => .decoded i
  | .error r => .error (.decodeError ⟨r, none⟩)

/-- The response to `DecodeProgram` (R69). -/
def decodeProgramResponse (x : List Byte) : Response :=
  match decodeProgram x with
  | .ok p => .decodedProgram p
  | .error e => .error (.decodeError e)

/-- One host transaction on an engine with no Run in progress (R6). The codec's need no engine (R101). -/
def State.perform (s : State) : Request → State
  | .load name address program => s.load name address program
  | .run stepBudget => s.startRun stepBudget
  | .encode i => s.respond (.encoded (Sys2Proof.encode i))
  | .decode x => s.respond (decodeResponse x)
  | .encodeProgram p => s.respond (.encoded (Sys2Proof.encodeProgram p))
  | .decodeProgram x => s.respond (decodeProgramResponse x)
  | .observe => s.respond (.observed s.observe)

/-- The step of an engine with no Run in progress: the oldest transaction, or nothing (R112). -/
def State.serve (s : State) : State :=
  match s.requests with
  | [] => s
  | q :: rest => { s with requests := rest }.perform q

/-- The host issues a transaction (R6, log entry 2). -/
def State.issue (s : State) (q : Request) : State := { s with requests := s.requests ++ [q] }

/-- The state in which the very next step fetches and runs `i`, as `Load` and the start of a Run would leave it (log
entry 6). If a living warrior has the turn, `i` goes to its address; otherwise the first living warrior gets the
turn of a last tick, after one has been registered at cell 0 if none lives. -/
def State.placeForFetch (s : State) (i : Instr) : State :=
  match s.turn with
  | some (_, w) => { s with core := s.core.write w.address i }
  | none =>
    let warriors :=
      if s.warriors.any (·.alive) then s.warriors
      else s.warriors ++ [{ name := "", address := 0, alive := true }]
    let k := warriors.findIdx (·.alive)
    let address := match warriors[k]? with
      | some w => w.address
      | none => 0
    { s with
      core := s.core.write address i
      warriors := warriors
      started := true
      run := some { ticksLeft := 1, k := k }
      response := none }

end Sys2Proof.Machine
end

