-- ==== Sys2Proof/Machine/Step.lean ====
section
/-! DEFINITION. One step of the block (R6, R103): a turn, a skip, or one host transaction while no Run is in
progress. -/

namespace Sys2Proof.Machine

/-- The small-step machine of R103, with the host's transactions served between Runs (log entries 1 and 25). -/
def step (s : State) : Host.Outcome State Fault Refusal :=
  match s.slot with
  | .idle => .next s.serve
  | .skip => .next s.advance
  | .turn i => advanceOutcome (exec i s)
  | .noCell a => .fault (.noSuchCell a)

/-- `s` with the instruction that `decodeTableWord` reads stored where the next step fetches, and with what that
takes (log entry 6); `s` itself if the word is an illegal record, which never reaches the engine (R72). -/
def State.withFetchWord (s : State) (nbits w : Nat) : State :=
  match decodeTableWord nbits w with
  | some i => s.placeForFetch i
  | none => s

end Sys2Proof.Machine
end

