-- ==== Sys2Proof/Machine/WholeRun.lean ====
section
/-! DEFINITION. `Run` as the one transaction of R95, loop by loop: the form the small-step machine is to agree with
(R103). -/

namespace Sys2Proof.Machine

/-- The body of the inner loop of R95, `for k in ...`, over the warriors still to come in a tick of which
`ticksLeft` are left. It stops where the turn's elimination has returned from the Run (R97, R98). -/
def State.restOfTick (ticksLeft : Nat) : List Nat → State → Host.Outcome State Fault Refusal
  | [], s => .next s
  | k :: ks, s =>
    let s := { s with run := some { ticksLeft := ticksLeft, k := k } }
    match s.slot with
    | .idle => .next s
    | .skip => s.restOfTick ticksLeft ks
    | .noCell a => .fault (.noSuchCell a)
    | .turn i =>
      match exec i s with
      | .next t => if t.run.isSome then t.restOfTick ticksLeft ks else .next t
      | .fault f => .fault f
      | .refused r => .refused r

/-- The outer loop of R95, `while ticks_left > 0`, and the return of `NoWinner` after it (R99). -/
def State.ticks : Nat → State → Host.Outcome State Fault Refusal
  | 0, s => .next (s.finishRun .noWinner)
  | n + 1, s =>
    match s.restOfTick (n + 1) (List.range s.warriors.length) with
    | .next t => if s.warriors.isEmpty || t.run.isSome then t.ticks n else .next t
    | .fault f => .fault f
    | .refused r => .refused r

/-- `Run(step_budget)` (R95) as one transaction, its result in `response`. -/
def State.runWhole (s : State) (stepBudget : Int) : Host.Outcome State Fault Refusal :=
  if s.faulted then .next (s.respond (.error .engineFaulted))
  else { s with started := true, response := none }.ticks stepBudget.toNat

end Sys2Proof.Machine
end

