-- ==== Sys2Proof/Safety.lean ====
section
/-! DEFINITION. What counts as a good state and a safe run, in the words the statements use. -/

namespace Sys2Proof.Machine

/-- Warrior `k`, whose record is `w`, has the turn (R93, R95): a Run is in progress and stands at `k`, the warrior
lives, and its program counter is a cell of the core (R26). -/
structure HasTurn (s : State) (k : Nat) (w : Warrior) : Prop where
  position : s.run.map (·.k) = some k
  record : s.warriors[k]? = some w
  alive : w.alive = true
  inCore : w.address < s.core.size

/-- The invariant of the block. -/
structure Inv (s : State) : Prop where
  /-- the core is in its canonical form (R20, log entry 5) -/
  core : s.core.wf = true
  /-- `MAX_CODE_SIZE` has a legal value (R29) -/
  maxCodeSize : 1 ≤ s.maxCodeSize
  /-- every program counter is a cell of the core (R22, R26) -/
  addresses : ∀ w ∈ s.warriors, w.address < s.core.size
  /-- before the first Run, no Run is in progress and no warrior has died (R27, R30) -/
  notStarted : s.started = false → s.run = none ∧ ∀ w ∈ s.warriors, w.alive = true
  /-- `FAULTED` says that a registered warrior exists and none lives (R30, R31, R98) -/
  faulted : s.faulted = true ↔ s.warriors ≠ [] ∧ s.liveCount = 0
  /-- a Run in progress has a tick to run, stands inside the table, and has returned nothing (R33, R95) -/
  running : ∀ r, s.run = some r →
    1 ≤ r.ticksLeft ∧ (r.k < s.warriors.length ∨ s.warriors = [] ∧ r.k = 0) ∧ s.faulted = false ∧ s.response = none
  /-- the elimination signal never reaches the host (R91) -/
  noEscape : ∀ k, s.response ≠ some (.error (.eliminationSignal k))

/-- `t` is `s` but for the contents of the core and the program counter of warrior `k` (record `w` in `s`), which is
`a` in `t`: every other record, the configuration, the status bits, the Run and the host's side are unchanged. -/
def MovesTo (s t : State) (k : Nat) (w : Warrior) (a : Nat) : Prop :=
  t = { s with
    core := { s.core with cells := t.core.cells }
    warriors := s.warriors.set k { w with address := a } }

/-- The two cells are the same, or are both DAT and differ in their modes alone (R87). -/
def SameButDatModes (c c' : Instr) : Prop :=
  c = c' ∨ c.op = .dat ∧ c'.op = .dat ∧ c.a = c'.a ∧ c.b = c'.b

/-- The two states differ in the modes of DAT cells, and in the reset modes, alone (R87). -/
def EquivDatModes (s s' : State) : Prop :=
  s.core.size = s'.core.size ∧ (∀ j, SameButDatModes (s.core.read j) (s'.core.read j)) ∧
    s' = { s with core := s'.core }

/-- The warrior with its name replaced. -/
def Warrior.renamed (f : String → String) (w : Warrior) : Warrior := { w with name := f w.name }

/-- The request with the name a `Load` gives replaced. -/
def Request.renamed (f : String → String) : Request → Request
  | .load name address p => .load (f name) address p
  | .run n => .run n
  | .encode i => .encode i
  | .decode x => .decode x
  | .encodeProgram p => .encodeProgram p
  | .decodeProgram x => .decodeProgram x
  | .observe => .observe

/-- The response with the names in an observed warrior table replaced. -/
def Response.renamed (f : String → String) : Response → Response
  | .observed o => .observed { o with warriors := o.warriors.map (·.renamed f) }
  | .loaded k => .loaded k
  | .winner k => .winner k
  | .noWinner => .noWinner
  | .encoded x => .encoded x
  | .decoded i => .decoded i
  | .decodedProgram p => .decodedProgram p
  | .error e => .error e

/-- The state with every name it holds replaced: in the table, in the requests and in the response. -/
def State.renamed (f : String → String) (s : State) : State :=
  { s with
    warriors := s.warriors.map (·.renamed f)
    requests := s.requests.map (·.renamed f)
    response := s.response.map (·.renamed f) }

/-- `sext_32` (R14): a 32-bit unsigned pattern read as a two's-complement number. -/
def sext32 (u : Nat) : Int := if 2 ^ 31 ≤ u then (u : Int) - 2 ^ 32 else u

/-- A state from which `n` steps stop at no fault and no refusal. -/
def SafeFor (n : Nat) (s : State) : Prop := ∃ t, Sys2Proof.core.run n s = .next t

end Sys2Proof.Machine
end

