-- ==== Sys2Proof/Certificates/Slice0/Obligations.lean ====
section
/-! DEFINITION. The statements for the provers. -/

section

open Sys2Proof Sys2Proof.Machine

/-! ### The codec -/

/-- R70: the codec round-trips exactly, for Instructions and for Programs, and re-encodes every record it accepts. -/
def Obligations.CodecRoundTripsExactly : Prop :=
  (∀ i : Instr, decode (encode i) = .ok i) ∧
    (∀ p : List Instr, decodeProgram (encodeProgram p) = .ok p) ∧
    (∀ (x : List Byte) (i : Instr), decode x = .ok i → encode i = x)

/-- A program buffer that decodes is the encoding of the program it decodes to (from R69 and R70). -/
def Obligations.AcceptedProgramBufferIsItsEncoding : Prop :=
  ∀ (x : List Byte) (p : List Instr), decodeProgram x = .ok p → encodeProgram p = x

/-- R67: the decoder's checks, each failing check named when all before it pass, and the record read when all pass:
the opcode and modes by their bytes, the fields as the `sext_32` of four little-endian bytes. The strict checks and
their order are the spec's own decisions D8 to D11 (log entry 12). -/
def Obligations.DecodeReportsTheFirstFailingCheck : Prop :=
  ∀ x : List Byte,
    (x.length ≠ 14 → decode x = .error .badLength) ∧
    (x.length = 14 → (∀ op : Opcode, x.take 3 ≠ op.ascii) → decode x = .error .unknownOpcode) ∧
    (∀ op : Opcode, x.length = 14 → x.take 3 = op.ascii →
      (x[3]? ≠ some 0x00 → decode x = .error .nonzeroPadding) ∧
      (x[3]? = some 0x00 → (∀ m, x[12]? ≠ some (modeByte m)) → decode x = .error .badAMode) ∧
      (∀ ma, x[3]? = some 0x00 → x[12]? = some (modeByte ma) →
        ((∀ m, x[13]? ≠ some (modeByte m)) → decode x = .error .badBMode) ∧
        (∀ mb, x[13]? = some (modeByte mb) → ∃ i a0 a1 a2 a3 b0 b1 b2 b3,
          decode x = .ok i ∧ i.op = op ∧ i.amode = ma ∧ i.bmode = mb ∧
          (x.drop 4).take 8 = [a0, a1, a2, a3, b0, b1, b2, b3] ∧
          i.a.toInt = sext32 (a0.toNat + 256 * a1.toNat + 65536 * a2.toNat + 16777216 * a3.toNat) ∧
          i.b.toInt = sext32 (b0.toNat + 256 * b1.toNat + 65536 * b2.toNat + 16777216 * b3.toNat))))

/-- A record decodes exactly if the opcode table's patterns and masks and the mode bytes make it legal (R71, R72,
opcode_table.json). -/
def Obligations.DecodesExactlyTheLegalRecords : Prop :=
  ∀ x : List Byte, (∃ i, decode x = .ok i) ↔ WellFormed.recordLegal x = true

/-- The layout of a record, byte by byte (R61, R62, R63, R64, R65, R66). -/
def Obligations.EncodeLaysOutTheRecord : Prop :=
  ∀ i : Instr, (encode i).length = 14 ∧ (encode i).take 3 = i.op.ascii ∧ (encode i)[3]? = some 0x00 ∧
    (∀ n, n < 4 → ((encode i)[4 + n]?).map (·.toNat) = some (i.a.toNat / 256 ^ n % 256)) ∧
    (∀ n, n < 4 → ((encode i)[8 + n]?).map (·.toNat) = some (i.b.toNat / 256 ^ n % 256)) ∧
    (encode i)[12]? = some (modeByte i.amode) ∧ (encode i)[13]? = some (modeByte i.bmode)

/-- R69: a program buffer of a bad length, the first record that fails, and the program when none fails. The order is
the spec's own decision D11 (log entry 12). -/
def Obligations.DecodeProgramReportsTheFirstFailingRecord : Prop :=
  ∀ x : List Byte,
    (x.length % 14 ≠ 0 → decodeProgram x = .error ⟨.badLength, none⟩) ∧
    (x.length % 14 = 0 →
      (∀ k r, k < x.length / 14 → (∀ j, j < k → ∃ i, decode ((x.drop (14 * j)).take 14) = .ok i) →
        decode ((x.drop (14 * k)).take 14) = .error r → decodeProgram x = .error ⟨r, some k⟩) ∧
      (∀ p : List Instr, p.length = x.length / 14 →
        (∀ j i, p[j]? = some i → decode ((x.drop (14 * j)).take 14) = .ok i) → decodeProgram x = .ok p))

/-- Records written out byte by byte from R61 to R65 decode to the instructions they stand for. -/
def Obligations.WrittenOutRecordsDecode : Prop :=
  decode [0x4A, 0x4D, 0x50, 0x00, 0xFD, 0xFF, 0xFF, 0xFF, 0x00, 0x00, 0x00, 0x00, 0x24, 0x24]
      = .ok (.jmp .direct (-3) .direct 0) ∧
  decode [0x41, 0x44, 0x44, 0x00, 0x00, 0x00, 0x00, 0x80, 0xFF, 0xFF, 0xFF, 0x7F, 0x23, 0x40]
      = .ok (.add .immediate (-2147483648) .indirect 2147483647) ∧
  decode [0x43, 0x4D, 0x50, 0x00, 0xFF, 0xFF, 0xFF, 0xFF, 0x00, 0x01, 0x00, 0x00, 0x40, 0x24]
      = .ok (.cmp .indirect (-1) .direct 256) ∧
  decodeTableWord 112 0x2424000000010000000000564F4D = some (.mov .direct 0 .direct 1)

/-! ### Operands and the ALU -/

/-- R15: `norm` is the Euclidean remainder, the one index of the core congruent to the integer. -/
def Obligations.NormIsTheEuclideanRemainder : Prop :=
  ∀ (m : Memory) (x : Int) (r : Nat), 1 ≤ m.size →
    (m.norm x = r ↔ r < m.size ∧ (m.size : Int) ∣ x - (r : Int))

/-- R49 with R40, R42 and R44: the immediate operand is the literal; the direct one is the cell of the core congruent
to `base + v`; the indirect one is the cell congruent to the base plus the B-field of that cell; the value of a cell
operand is its B-field. The B-field and the exact sum are the spec's own decisions D2, D3 and D6 (log entries 8 and
11). -/
def Obligations.OperandsResolveInsideTheCore : Prop :=
  ∀ (m : Memory) (base : Nat) (v : Word), base < m.size →
    resolve m base .immediate v = .imm v ∧
    ∃ p, p < m.size ∧ (m.size : Int) ∣ ((base : Int) + v.toInt) - (p : Int) ∧ resolve m base .direct v = .cell p ∧
      ∃ q, q < m.size ∧ (m.size : Int) ∣ ((base : Int) + (m.read p).b.toInt) - (q : Int) ∧
        resolve m base .indirect v = .cell q ∧
        valueRead m (resolve m base .immediate v) = v ∧
        valueRead m (resolve m base .direct v) = (m.read p).b ∧
        valueRead m (resolve m base .indirect v) = (m.read q).b

/-- R78 with R14: `add32` is the integer sum wrapped into Int32. -/
def Obligations.AddWrapsAtThirtyTwoBits : Prop :=
  ∀ x y : Word, (add32 x y).toInt = (x.toInt + y.toInt + 2 ^ 31) % 2 ^ 32 - 2 ^ 31

/-- R81 and R82: equality is that of the integers, which is that of the patterns; less-than is the signed one. -/
def Obligations.ComparisonsAreOfSignedValues : Prop :=
  ∀ x y : Word, (eq32 x y = true ↔ x.toInt = y.toInt) ∧ (eq32 x y = true ↔ x = y) ∧ (slt32 x y = true ↔ x.toInt < y.toInt)

/-- R48: a write through an immediate operand changes no cell, whatever the value and the instruction: MOV and ADD with
an immediate B complete with the core as it was. -/
def Obligations.ImmediateWriteChangesNoCell : Prop :=
  (∀ (m : Memory) (v x : Word) (c : Instr), writeCell m (.imm v) c = m ∧ writeB m (.imm v) x = m) ∧
  (∀ (s : State) (k : Nat) (w : Warrior) (ma : Mode) (a b : Word), HasTurn s k w →
    (∃ t, exec (.mov ma a .immediate b) s = .next t ∧ t.core = s.core) ∧
    (∃ t, exec (.add ma a .immediate b) s = .next t ∧ t.core = s.core))

/-! ### The instructions: each completes, with this result and this frame -/

/-- R79: MOV completes; a literal A replaces the B-field of the cell that B addresses, a cell A replaces that whole
cell; every other cell is as before, none changes under an immediate B; the program counter moves on by one; nothing
else changes. That a literal goes into the B-field is the spec's own decision D4 (log entry 9). -/
def Obligations.MovCopiesToTheTarget : Prop :=
  ∀ (s : State) (k : Nat) (w : Warrior) (ma : Mode) (a : Word) (mb : Mode) (b : Word),
    HasTurn s k w → s.core.wf = true →
    (encode (.mov ma a mb b)).take 3 = [0x4D, 0x4F, 0x56] ∧
    ∃ t, exec (.mov ma a mb b) s = .next t ∧ MovesTo s t k w ((w.address + 1) % s.core.size) ∧
      ∀ j, t.core.read j =
        if resolve s.core w.address mb b = .cell j then
          match resolve s.core w.address ma a with
          | .imm v => .make (s.core.read j).op (s.core.read j).a v (s.core.read j).amode (s.core.read j).bmode
          | .cell i => s.core.read i
        else s.core.read j

/-- R80: ADD completes; the wrapped sum of the two operand values replaces the B-field of the cell that B addresses,
whose opcode, A-field and modes stay; every other cell is as before; the program counter moves on by one; nothing
else changes. That a cell's value is its B-field is the spec's own decision D2 (log entry 8). -/
def Obligations.AddWritesTheSumIntoTheBField : Prop :=
  ∀ (s : State) (k : Nat) (w : Warrior) (ma : Mode) (a : Word) (mb : Mode) (b : Word),
    HasTurn s k w → s.core.wf = true →
    (encode (.add ma a mb b)).take 3 = [0x41, 0x44, 0x44] ∧
    ∃ t, exec (.add ma a mb b) s = .next t ∧ MovesTo s t k w ((w.address + 1) % s.core.size) ∧
      ∀ j, t.core.read j =
        if resolve s.core w.address mb b = .cell j then
          .make (s.core.read j).op (s.core.read j).a
            (BitVec.ofInt 32 ((valueRead s.core (resolve s.core w.address ma a)).toInt + (s.core.read j).b.toInt))
            (s.core.read j).amode (s.core.read j).bmode
        else s.core.read j

/-- R83: JMP completes; the program counter becomes the cell that A addresses, a literal being taken as an offset
from the base; B has no effect; nothing else changes. That a literal is an offset is the spec's own decision D5 (log
entry 10). -/
def Obligations.JmpGoesToTheResolvedCell : Prop :=
  ∀ (s : State) (k : Nat) (w : Warrior) (ma : Mode) (a : Word) (mb : Mode) (b : Word), HasTurn s k w →
    (encode (.jmp ma a mb b)).take 3 = [0x4A, 0x4D, 0x50] ∧
    ∃ p q, p < s.core.size ∧ (s.core.size : Int) ∣ ((w.address : Int) + a.toInt) - (p : Int) ∧
      q < s.core.size ∧ (s.core.size : Int) ∣ ((w.address : Int) + (s.core.read p).b.toInt) - (q : Int) ∧
      exec (.jmp ma a mb b) s =
        .next { s with warriors := s.warriors.set k { w with address := if ma = .indirect then q else p } }

/-- R84: CMP completes; the program counter moves on by two if the operand values are equal and by one otherwise,
wrapping; nothing else changes. That a cell's value is its B-field is the spec's own decision D2 (log entry 8). -/
def Obligations.CmpSkipsWhenEqual : Prop :=
  ∀ (s : State) (k : Nat) (w : Warrior) (ma : Mode) (a : Word) (mb : Mode) (b : Word), HasTurn s k w →
    (encode (.cmp ma a mb b)).take 3 = [0x43, 0x4D, 0x50] ∧
    let a' := if valueRead s.core (resolve s.core w.address ma a) = valueRead s.core (resolve s.core w.address mb b)
      then (w.address + 2) % s.core.size else (w.address + 1) % s.core.size
    exec (.cmp ma a mb b) s = .next { s with warriors := s.warriors.set k { w with address := a' } }

/-- R85: SLT completes; the program counter moves on by two if the value of A is less than that of B as signed
integers and by one otherwise, wrapping; nothing else changes. That a cell's value is its B-field is the spec's own
decision D2 (log entry 8). -/
def Obligations.SltSkipsWhenLess : Prop :=
  ∀ (s : State) (k : Nat) (w : Warrior) (ma : Mode) (a : Word) (mb : Mode) (b : Word), HasTurn s k w →
    (encode (.slt ma a mb b)).take 3 = [0x53, 0x4C, 0x54] ∧
    let a' := if (valueRead s.core (resolve s.core w.address ma a)).toInt
    < (valueRead s.core (resolve s.core w.address mb b)).toInt
      then (w.address + 2) % s.core.size else (w.address + 1) % s.core.size
    exec (.slt ma a mb b) s = .next { s with warriors := s.warriors.set k { w with address := a' } }

/-- R86, R91, R97 and R98: DAT completes whatever its operands are; the executing warrior dies where it stands and
the core does not change. With two or more others alive nothing else changes; with one other alive the Run returns
that one as the winner; with none the block is faulted and the Run raises the fatal draw. -/
def Obligations.DatEliminatesTheExecutingWarrior : Prop :=
  ∀ (s : State) (k : Nat) (w : Warrior) (ma : Mode) (a : Word) (mb : Mode) (b : Word), HasTurn s k w →
    (encode (.dat ma a mb b)).take 3 = [0x44, 0x41, 0x54] ∧
    (3 ≤ s.liveCount → exec (.dat ma a mb b) s =
      .next { s with warriors := s.warriors.set k { w with alive := false } }) ∧
    (s.liveCount = 2 → ∃ j w', j ≠ k ∧ s.warriors[j]? = some w' ∧ w'.alive = true ∧ exec (.dat ma a mb b) s =
      .next { s with
        warriors := s.warriors.set k { w with alive := false }, run := none, response := some (.winner j) }) ∧
    (s.liveCount = 1 → exec (.dat ma a mb b) s =
      .next { s with
        warriors := s.warriors.set k { w with alive := false }, faulted := true, run := none,
        response := some (.error (.fatalDrawError k)) }) ∧
    1 ≤ s.liveCount

/-- The model's own stops, a DESIGN CHOICE (log entry 19): R93 defines a turn only for a living warrior whose base is a
cell of the core; `exec` asked to run with no turn in progress, or for a warrior whose program counter is no cell of the
core, faults by name. -/
def Obligations.ExecOutsideATurnFaults : Prop :=
  ∀ (i : Instr) (s : State),
    (s.turn = none → exec i s = .fault .noTurn) ∧
    (∀ k w, s.turn = some (k, w) → s.core.size ≤ w.address → exec i s = .fault (.noSuchCell w.address))

/-- R32 and R76: an instruction changes no cell of the core but the one that operand B of a MOV or an ADD addresses (none
under an immediate B), and no warrior's record but its own, whose name it keeps; the configuration, `STARTED` and the
host's requests stay. An instruction other than DAT keeps its warrior alive, and `FAULTED`, the Run and the response as
they are; DAT keeps the program counter and clears `alive`. -/
def Obligations.InstructionTouchesOneCellAndItsOwnWarrior : Prop :=
  ∀ (i : Instr) (s t : State), s.core.wf = true → exec i s = .next t →
    ∃ k w w', HasTurn s k w ∧ t.warriors = s.warriors.set k w' ∧ w'.name = w.name ∧
      (∀ j, ¬ ((i.op = .mov ∨ i.op = .add) ∧ resolve s.core w.address i.bmode i.b = .cell j) →
        t.core.read j = s.core.read j) ∧
      t.core.size = s.core.size ∧ t.core.initAMode = s.core.initAMode ∧ t.core.initBMode = s.core.initBMode ∧
      t.maxCodeSize = s.maxCodeSize ∧ t.started = s.started ∧ t.requests = s.requests ∧
      (i.op ≠ .dat → w'.alive = true ∧ t.faulted = s.faulted ∧ t.run = s.run ∧ t.response = s.response) ∧
      (i.op = .dat → w' = { w with alive := false })

/-! ### The step and the scheduler -/

/-- A step runs the fetched instruction (R93, R103): when warrior `k` has the turn, the step is `exec` of the cell at
its program counter, with the scheduler's position moved on after it. In particular for the instruction that a record
decodes to, once it stands there. -/
def Obligations.StepRunsTheFetchedInstruction : Prop :=
  ∀ (s : State) (k : Nat) (w : Warrior), HasTurn s k w →
    step s = advanceOutcome (exec (s.core.read w.address) s) ∧
    ∀ (x : List Byte) (i : Instr), decode x = .ok i → s.core.read w.address = i →
      step s = advanceOutcome (exec i s)

/-- The scheduler's move (R99, R103): to the next warrior of the tick; past the last, to the first of the next tick;
past the last tick the Run returns `NoWinner`. A Run that has ended does not move. -/
def Obligations.PositionMovesOnRoundRobin : Prop :=
  ∀ (s : State), (s.run = none → s.advance = s) ∧
    ∀ n k, s.run = some ⟨n, k⟩ →
      (k + 1 < s.warriors.length → s.advance = { s with run := some ⟨n, k + 1⟩ }) ∧
      (s.warriors.length ≤ k + 1 → 2 ≤ n → s.advance = { s with run := some ⟨n - 1, 0⟩ }) ∧
      (s.warriors.length ≤ k + 1 → n ≤ 1 → s.advance = { s with run := none, response := some .noWinner })

/-- R96: a dead warrior takes no turn; the step only moves on. -/
def Obligations.DeadWarriorTakesNoTurn : Prop :=
  ∀ (s : State) (n k : Nat) (w : Warrior), s.run = some ⟨n, k⟩ → s.warriors[k]? = some w → w.alive = false →
    step s = .next s.advance

/-- R112: with no Run in progress and no transaction issued, all state is kept. That an idle engine takes a step at
all is the model's reading (log entry 3). -/
def Obligations.IdleEngineKeepsItsState : Prop :=
  ∀ s : State, s.run = none → s.requests = [] → step s = .next s

/-- R105: while a Run is in progress the step begins no transaction, and the requests stay as they are. -/
def Obligations.RunIsNotInterrupted : Prop :=
  ∀ s t : State, s.run ≠ none → step s = .next t → t.requests = s.requests ∧ t.started = s.started

/-- R97, R98, R99: a Run in progress ends in one of three ways: with the one living warrior as the winner, with the
fatal draw, or with `NoWinner` when the last tick has been run to its end. -/
def Obligations.RunEndsInThreeWays : Prop :=
  ∀ (s t : State) (n k : Nat), s.run = some ⟨n, k⟩ → step s = .next t → t.run = none →
    (∃ j w, t.response = some (.winner j) ∧ t.warriors[j]? = some w ∧ w.alive = true ∧
      (∀ (i : Nat) (w' : Warrior), t.warriors[i]? = some w' → w'.alive = true → i = j) ∧ t.faulted = s.faulted) ∨
    (t.response = some (.error (.fatalDrawError k)) ∧ t.faulted = true ∧ ∀ w ∈ t.warriors, w.alive = false) ∨
    (t.response = some .noWinner ∧ n ≤ 1 ∧ t.warriors.length ≤ k + 1 ∧ t.faulted = s.faulted)

/-- R27 with R24: a step keeps every record in its place; a dead warrior's record never changes again; a living one
dies only by executing a DAT in its own turn, and stays where it is; a new record is alive. -/
def Obligations.DeathOnlyByExecutingDat : Prop :=
  ∀ s t : State, step s = .next t →
    (∀ k w, s.warriors[k]? = some w → ∃ w', t.warriors[k]? = some w' ∧ w'.name = w.name ∧
      (w.alive = false → w' = w) ∧
      (w.alive = true → w'.alive = false →
        HasTurn s k w ∧ (s.core.read w.address).op = .dat ∧ w' = { w with alive := false })) ∧
    (∀ (k : Nat) (w' : Warrior), s.warriors[k]? = none → t.warriors[k]? = some w' → w'.alive = true)

/-- R26: a program counter changes only in its own warrior's turn, by an instruction other than DAT. -/
def Obligations.ProgramCounterChangesOnlyInOwnTurn : Prop :=
  ∀ (s t : State) (k : Nat) (w w' : Warrior), step s = .next t → s.warriors[k]? = some w →
    t.warriors[k]? = some w' → w'.address ≠ w.address →
    HasTurn s k w ∧ (s.core.read w.address).op ≠ .dat

/-- R21: a step changes the core only by serving a `Load`, and then no cell outside `[address, address + m)`, or by a MOV
or an ADD in a turn, and then no cell but the one that its operand B addresses. -/
def Obligations.CoreIsWrittenOnlyByLoadMovAdd : Prop :=
  ∀ s t : State, s.core.wf = true → step s = .next t → t.core ≠ s.core →
    (s.run = none ∧ ∃ name address p rest, s.requests = .load name address p :: rest ∧
      ∀ j : Nat, (j : Int) < address ∨ address + p.length ≤ j → t.core.read j = s.core.read j) ∨
    (∃ k w c, HasTurn s k w ∧
      ((s.core.read w.address).op = .mov ∨ (s.core.read w.address).op = .add) ∧
      resolve s.core w.address (s.core.read w.address).bmode (s.core.read w.address).b = .cell c ∧
      ∀ j, j ≠ c → t.core.read j = s.core.read j)

/-- R29: no instruction and no transaction writes `CORE_SIZE` or `MAX_CODE_SIZE`; nor the open reset modes. -/
def Obligations.ConfigurationIsReadOnly : Prop :=
  ∀ s t : State, step s = .next t →
    t.core.size = s.core.size ∧ t.maxCodeSize = s.maxCodeSize ∧
    t.core.initAMode = s.core.initAMode ∧ t.core.initBMode = s.core.initBMode

/-- The status bits (R30): `STARTED` is set only by serving a `Run` and never cleared; `FAULTED` is set only by the
turn that raises the fatal draw and never cleared. -/
def Obligations.StatusBitsAreSticky : Prop :=
  ∀ s t : State, step s = .next t →
    (s.started = true → t.started = true) ∧
    (s.started = false → t.started = true → s.run = none ∧ ∃ n rest, s.requests = .run n :: rest) ∧
    (s.faulted = true → t.faulted = true) ∧
    (s.faulted = false → t.faulted = true → ∃ k w, HasTurn s k w ∧ (s.core.read w.address).op = .dat ∧
      t.run = none ∧ t.response = some (.error (.fatalDrawError k)))

/-! ### The host's transactions -/

/-- R113 (and R35): Construct refuses a parameter below 1, `core_size` first; otherwise every cell is `DAT 0,0` with the
two modes given, the table is empty, both status bits are false and no Run is in progress. Its default arguments are
8000 and 100. -/
def Obligations.ConstructGivesTheResetState : Prop :=
  ∀ (ia ib : Mode) (n c : Int),
    State.construct ia ib = State.construct ia ib 8000 100 ∧
    (n < 1 → State.construct ia ib n c = .error (.badConfig .coreSize)) ∧
    (1 ≤ n → c < 1 → State.construct ia ib n c = .error (.badConfig .maxCodeSize)) ∧
    (1 ≤ n → 1 ≤ c → ∃ s, State.construct ia ib n c = .ok s ∧ (s.core.size : Int) = n ∧ (s.maxCodeSize : Int) = c ∧
      (∀ i, s.core.read i = .dat ia 0 ib 0) ∧ s.warriors = [] ∧ s.started = false ∧ s.faulted = false ∧
      s.run = none)

/-- The reset state is what Construct gives with its default arguments (R113) and the open modes (R12). -/
def Obligations.ResetIsTheDefaultConstruct : Prop :=
  State.construct Config.initAMode Config.initBMode = .ok State.reset

/-- R115, R116, R120: a `Load` served with no Run in progress: the first check that fails gives the error, and
nothing of the block changes. The order and the refusal after a Run are the spec's own decisions D19 and D23 (log
entry 16). -/
def Obligations.LoadChecksInOrder : Prop :=
  ∀ (s : State) (name : String) (address : Int) (p : List Instr) (rest : List Request),
    s.run = none → s.requests = .load name address p :: rest →
    (s.faulted = true →
      step s = .next { s with requests := rest, response := some (.error .engineFaulted) }) ∧
    (s.faulted = false → s.started = true →
      step s = .next { s with requests := rest, response := some (.error .loadAfterRun) }) ∧
    (s.faulted = false → s.started = false → s.maxCodeSize ≤ p.length →
      step s = .next { s with requests := rest, response := some (.error (.placementError .programTooLong)) }) ∧
    (s.faulted = false → s.started = false → p.length < s.maxCodeSize → address < 0 →
      step s = .next { s with requests := rest, response := some (.error (.placementError .negativeAddress)) }) ∧
    (s.faulted = false → s.started = false → p.length < s.maxCodeSize → 0 ≤ address →
      s.core.size ≤ address + p.length →
      step s = .next { s with requests := rest, response := some (.error (.placementError .pastEndOfCore)) })

/-- R117 and R118: a `Load` that passes every check writes the program's instructions from `address` upwards and no
other cell, appends a living warrior at `address`, and returns its index; nothing else changes. -/
def Obligations.LoadPlacesAndRegisters : Prop :=
  ∀ (s : State) (name : String) (address : Nat) (p : List Instr) (rest : List Request),
    s.core.wf = true → s.run = none → s.requests = .load name address p :: rest →
    s.faulted = false → s.started = false → p.length < s.maxCodeSize → address + p.length < s.core.size →
    ∃ t, step s = .next t ∧
      t = { s with
        core := { s.core with cells := t.core.cells }
        warriors := s.warriors ++ [{ name := name, address := address, alive := true }]
        requests := rest
        response := some (.loaded s.warriors.length) } ∧
      (∀ j c, p[j]? = some c → t.core.read (address + j) = c) ∧
      (∀ i, i < address ∨ address + p.length ≤ i → t.core.read i = s.core.read i)

/-- R95 and R99: a `Run` served with no Run in progress and the block not faulted sets `STARTED`; a budget of no tick
returns `NoWinner` at once, any other one starts its first tick at warrior 0 and has returned nothing yet. The budget
of no tick and the start at warrior 0 are the spec's own decisions D15 and D20 (log entry 15); that the acceptance is
a step of its own is the model's choice (log entry 25). -/
def Obligations.RunStartsAtTheFirstWarrior : Prop :=
  ∀ (s : State) (n : Int) (rest : List Request), s.run = none → s.requests = .run n :: rest → s.faulted = false →
    (n ≤ 0 → step s = .next { s with requests := rest, started := true, response := some .noWinner }) ∧
    (1 ≤ n → ∃ r : Nat, (r : Int) = n ∧ step s =
      .next { s with requests := rest, started := true, run := some ⟨r, 0⟩, response := none })

/-- R101: once the block is faulted, every `Run` and `Load` is refused with `EngineFaulted` and changes nothing; the
codec's transactions answer as ever, and `Observe` shows the core, the table and the status bits as they are. The
refusal is the spec's own decision D18 (log entry 16). -/
def Obligations.FaultedEngineRefusesLoadAndRun : Prop :=
  ∀ (s : State) (q : Request) (rest : List Request), s.run = none → s.requests = q :: rest → s.faulted = true →
    ∃ r, step s = .next { s with requests := rest, response := some r } ∧
      (∀ name address p, q = .load name address p → r = .error .engineFaulted) ∧
      (∀ n, q = .run n → r = .error .engineFaulted) ∧
      (∀ i, q = .encode i → r = .encoded (encode i)) ∧
      (∀ p, q = .encodeProgram p → r = .encoded (encodeProgram p)) ∧
      (∀ x i, q = .decode x → decode x = .ok i → r = .decoded i) ∧
      (∀ x e, q = .decode x → decode x = .error e → r = .error (.decodeError ⟨e, none⟩)) ∧
      (∀ x p, q = .decodeProgram x → decodeProgram x = .ok p → r = .decodedProgram p) ∧
      (∀ x e, q = .decodeProgram x → decodeProgram x = .error e → r = .error (.decodeError e)) ∧
      (q = .observe → ∃ o, r = .observed o ∧ o.warriors = s.warriors ∧ o.started = s.started ∧ o.faulted = true ∧
        o.core.length = s.core.size ∧ ∀ i, i < s.core.size → o.core[i]? = some (s.core.read i))

/-- The match status (R31) in a well-formed state: `fatal` when warriors are registered and none lives, `won` when
exactly one lives, `running` otherwise. -/
def Obligations.MatchStatusCountsTheLiving : Prop :=
  ∀ s : State, Inv s →
    (s.matchStatus = .fatal ↔ s.warriors ≠ [] ∧ ∀ w ∈ s.warriors, w.alive = false) ∧
    (s.matchStatus = .won ↔ s.liveCount = 1) ∧
    (s.matchStatus = .running ↔ s.warriors = [] ∨ 2 ≤ s.liveCount)

/-! ### The whole machine -/

/-- The invariant holds right after every Construct that succeeds (R35), so at reset. -/
def Obligations.InvariantHoldsAtReset : Prop :=
  Inv State.reset ∧ ∀ (ia ib : Mode) (n c : Int) (s : State), State.construct ia ib n c = .ok s → Inv s

/-- Every step keeps the invariant: the core stays canonical, every program counter stays a cell of the core (R26),
`FAULTED` stays the absence of a living warrior (R30, R98), the Run stays inside the table (R103), and the
elimination signal never reaches the host (R91). -/
def Obligations.EveryStepKeepsTheInvariant : Prop :=
  ∀ s t : State, Inv s → step s = .next t → Inv t

/-- R90, R51, R54: from a well-formed state no step faults and none is refused, whatever the core holds. -/
def Obligations.NoStepStopsFromAWellFormedState : Prop :=
  ∀ s : State, Inv s → ∃ t, step s = .next t

/-- From a well-formed state, with any further transactions issued by the host, no number of steps stops (R90, R104). -/
def Obligations.NoRunStopsFromAWellFormedState : Prop :=
  ∀ (s : State) (qs : List Request) (n : Nat), Inv s → SafeFor n { s with requests := s.requests ++ qs }

/-- R103: the small-step machine agrees with `Run` as written in R95: served as a request, a `Run` comes, after some
number of steps, to exactly the state and the result that the loops of R95 give. That a Run is a request, accepted in a
step of its own, is the model's choice (log entries 2 and 25). -/
def Obligations.SmallStepsAgreeWithTheRunLoops : Prop :=
  ∀ (s : State) (n : Int) (rest : List Request), Inv s → s.run = none → s.requests = .run n :: rest →
    ∃ steps u, { s with requests := rest }.runWhole n = .next u ∧ u.run = none ∧
      Sys2Proof.core.run steps s = .next u

/-- Each Run is bounded by its budget (R95, R104): a Run in progress returns within as many steps as its remaining
ticks times the number of warriors. The one step a tick for an empty table is the model's reading (log entry 1). -/
def Obligations.RunReturnsWithinItsBudget : Prop :=
  ∀ (s : State) (r : RunPos), Inv s → s.run = some r →
    ∃ steps u, steps ≤ r.ticksLeft * max 1 s.warriors.length ∧ Sys2Proof.core.run steps s = .next u ∧
      u.run = none ∧ u.response ≠ none

/-- R87: the modes of DAT cells, the open reset modes among them, change no program counter, no `alive` bit, no B-field
and no result: two states that differ in them alone step to two states that do. (A step that serves an `Observe` is
left out: it shows the modes.) -/
def Obligations.DatModesAreNeverInterpreted : Prop :=
  ∀ s s' t : State, s.core.wf = true → s'.core.wf = true → EquivDatModes s s' →
    (s.run = none → ∀ rest, s.requests ≠ .observe :: rest) → step s = .next t →
    ∃ t', step s' = .next t' ∧ EquivDatModes t t'

/-- R23: no rule reads a name. With other names in the table, in the requests and in the response, every step does the
same, a stop included, with those names in their place: a `Load` registers the other name, an `Observe` shows the other
names, and nothing else differs. -/
def Obligations.NamesAreNeverRead : Prop :=
  ∀ (f : String → String) (s : State),
    (∀ t, step s = .next t → step (s.renamed f) = .next (t.renamed f)) ∧
    (∀ e, step s = .fault e → step (s.renamed f) = .fault e)

/-- The model's own `response` field (log entry 2) is never read: with another response a step does exactly the same,
its new response included, or it keeps the response and does the same with the other one kept. -/
def Obligations.ResponseIsNeverRead : Prop :=
  ∀ (s t : State) (r : Option Response), step s = .next t →
    step { s with response := r } = .next t ∨
      (t.response = s.response ∧ step { s with response := r } = .next { t with response := r })

/-- The model's `withFetchWord` (log entry 6): from reset, the very next step runs exactly the instruction that the
record decodes to, and completes. -/
def Obligations.PlacedWordIsRunFromReset : Prop :=
  ∀ (w : Nat) (i : Instr), decodeTableWord 112 w = some i →
    HasTurn (State.reset.withFetchWord 112 w) 0 { name := "", address := 0, alive := true } ∧
    step (State.reset.withFetchWord 112 w) = advanceOutcome (exec i (State.reset.withFetchWord 112 w)) ∧
    ∃ t, step (State.reset.withFetchWord 112 w) = .next t

/-! ### Transactions on any engine, and the written form of an instruction -/

/-- The codec's transactions (R6, R66 to R69, R101), on an engine in any state between Runs: each answers what the codec
gives and changes nothing of the block. A program's `DecodeError` names its record, a single record's names none (log
entry 12). -/
def Obligations.CodecAnswersOnEveryEngine : Prop :=
  ∀ (s : State) (rest : List Request), s.run = none →
    (∀ i, s.requests = .encode i :: rest →
      step s = .next { s with requests := rest, response := some (.encoded (encode i)) }) ∧
    (∀ p, s.requests = .encodeProgram p :: rest →
      step s = .next { s with requests := rest, response := some (.encoded (encodeProgram p)) }) ∧
    (∀ x, s.requests = .decode x :: rest →
      (∀ i, decode x = .ok i → step s = .next { s with requests := rest, response := some (.decoded i) }) ∧
      (∀ e, decode x = .error e →
        step s = .next { s with requests := rest, response := some (.error (.decodeError ⟨e, none⟩)) })) ∧
    (∀ x, s.requests = .decodeProgram x :: rest →
      (∀ p, decodeProgram x = .ok p → step s = .next { s with requests := rest, response := some (.decodedProgram p) }) ∧
      (∀ e, decodeProgram x = .error e →
        step s = .next { s with requests := rest, response := some (.error (.decodeError e)) }))

/-- `Observe` (R6, R30), on an engine in any state between Runs: it changes nothing of the block and shows every cell of
the core, the warrior table and the two status bits. That it also shows `MAX_CODE_SIZE` and the match status as R31
computes it is the model's choice (log entry 24). -/
def Obligations.ObserveShowsTheState : Prop :=
  ∀ (s : State) (rest : List Request), s.run = none → s.requests = .observe :: rest →
    ∃ o, step s = .next { s with requests := rest, response := some (.observed o) } ∧
      o.core.length = s.core.size ∧ (∀ i, i < s.core.size → o.core[i]? = some (s.core.read i)) ∧
      o.warriors = s.warriors ∧ o.started = s.started ∧ o.faulted = s.faulted ∧ o.maxCodeSize = s.maxCodeSize ∧
      (o.status = .fatal ↔ s.faulted = true) ∧
      (o.status = .won ↔ s.faulted = false ∧ (s.warriors.filter (·.alive)).length = 1) ∧
      (o.status = .running ↔ s.faulted = false ∧ (s.warriors.filter (·.alive)).length ≠ 1)

/-- The written form of R75: its letters are the ASCII bytes that the record holds (R62, R65), and its worked example,
`JMP $-3, $0`, with the record it encodes to; a value at the end of its range is written in decimal too. -/
def Obligations.WrittenFormNamesTheRecord : Prop :=
  (∀ op : Opcode, (op.mnemonic.toList.map fun c => BitVec.ofNat 8 c.toNat) = op.ascii) ∧
    (∀ m : Mode, (m.symbol.toList.map fun c => BitVec.ofNat 8 c.toNat) = [modeByte m]) ∧
    (Instr.jmp .direct (-3) .direct 0).assembly = "JMP $-3, $0" ∧
    encode (.jmp .direct (-3) .direct 0)
      = [0x4A, 0x4D, 0x50, 0x00, 0xFD, 0xFF, 0xFF, 0xFF, 0x00, 0x00, 0x00, 0x00, 0x24, 0x24] ∧
    (Instr.add .immediate (-2147483648) .indirect 2147483647).assembly = "ADD #-2147483648, @2147483647"

end
end

