-- ==== Sys2Proof/Laws/Codec.lean ====
section
/-! SUPPORT. The parts of the codec invert each other (R62 to R65), and the opcode table's rows do not overlap
(R71). -/

namespace Sys2Proof

theorem modeOfByte_modeByte (m : Mode) : modeOfByte (modeByte m) = some m := by cases m <;> decide

theorem modeByte_of_modeOfByte {b : Byte} {m : Mode} (h : modeOfByte b = some m) : modeByte m = b := by
  unfold modeOfByte at h
  split at h
  · cases h; exact Eq.symm ‹_›
  · split at h
    · cases h; exact Eq.symm ‹_›
    · split at h
      · cases h; exact Eq.symm ‹_›
      · cases h

theorem opcodeOfBytes_eq_some {o0 o1 o2 : Byte} {op : Opcode} :
    opcodeOfBytes o0 o1 o2 = some op ↔ op.ascii = [o0, o1, o2] := by
  constructor
  · intro h
    simpa using List.find?_some h
  · intro h
    unfold opcodeOfBytes
    rw [← h]
    cases op <;> decide

theorem wordOfBytes_le32 (u : Word) :
    wordOfBytes (u.extractLsb' 0 8) (u.extractLsb' 8 8) (u.extractLsb' 16 8) (u.extractLsb' 24 8) = u := by
  apply BitVec.eq_of_toNat_eq
  simp only [wordOfBytes, BitVec.toNat_ofNat, BitVec.extractLsb'_toNat, Nat.shiftRight_eq_div_pow]
  have := u.isLt
  omega

theorem le32_wordOfBytes (b0 b1 b2 b3 : Byte) : le32 (wordOfBytes b0 b1 b2 b3) = [b0, b1, b2, b3] := by
  have := b0.isLt
  have := b1.isLt
  have := b2.isLt
  have := b3.isLt
  simp only [le32, List.cons.injEq, and_true]
  refine ⟨?_, ?_, ?_, ?_⟩ <;> apply BitVec.eq_of_toNat_eq <;>
    simp only [wordOfBytes, BitVec.toNat_ofNat, BitVec.extractLsb'_toNat, Nat.shiftRight_eq_div_pow] <;> omega

theorem make_fields (op : Opcode) (a b : Word) (ma mb : Mode) :
    (Instr.make op a b ma mb).op = op ∧ (Instr.make op a b ma mb).a = a ∧ (Instr.make op a b ma mb).b = b ∧
      (Instr.make op a b ma mb).amode = ma ∧ (Instr.make op a b ma mb).bmode = mb := by
  cases op <;> exact ⟨rfl, rfl, rfl, rfl, rfl⟩

theorem make_of_fields (i : Instr) : Instr.make i.op i.a i.b i.amode i.bmode = i := by cases i <;> rfl

/-- The fourteen bytes of a record, one by one (R61, R66). -/
theorem encode_bytes (i : Instr) : ∃ o0 o1 o2, i.op.ascii = [o0, o1, o2] ∧
    encode i = [o0, o1, o2, 0x00,
      i.a.extractLsb' 0 8, i.a.extractLsb' 8 8, i.a.extractLsb' 16 8, i.a.extractLsb' 24 8,
      i.b.extractLsb' 0 8, i.b.extractLsb' 8 8, i.b.extractLsb' 16 8, i.b.extractLsb' 24 8,
      modeByte i.amode, modeByte i.bmode] := by
  cases i <;> exact ⟨_, _, _, rfl, rfl⟩

theorem encode_length (i : Instr) : (encode i).length = 14 := by cases i <;> rfl

theorem ofPrefix_op (op : Opcode) (c0 c1 c2 c3 : Byte) : (WellFormed.OpcodeRow.ofPrefix op c0 c1 c2 c3).op = op := rfl

/-- Bytes masked with zeros are zeros. -/
theorem masked_tail {x : List Byte} (h : x.length = 10) :
    List.zipWith (· &&& ·) x [0, 0, 0, 0, 0, 0, 0, 0, 0, 0] = [0, 0, 0, 0, 0, 0, 0, 0, 0, 0] := by
  match x, h with
  | [_, _, _, _, _, _, _, _, _, _], _ => simp

/-- A row admits a record exactly when the first four bytes are the row's (opcode_table.json). -/
theorem admits_ofPrefix (op : Opcode) (c0 c1 c2 c3 o0 o1 o2 o3 : Byte) {x : List Byte} (h : x.length = 10) :
    (WellFormed.OpcodeRow.ofPrefix op c0 c1 c2 c3).admits (o0 :: o1 :: o2 :: o3 :: x) =
      decide (o0 = c0 ∧ o1 = c1 ∧ o2 = c2 ∧ o3 = c3) := by
  have hb : ∀ b : Byte, b &&& 0xFF = b := fun b => BitVec.and_allOnes (x := b)
  simp only [WellFormed.OpcodeRow.admits, WellFormed.OpcodeRow.ofPrefix, List.zipWith_cons_cons, masked_tail h, hb,
    List.cons.injEq, and_true]

/-- No record is admitted by two rows of the opcode table. -/
theorem opcodeTable_disjoint : WellFormed.opcodeTable.Pairwise fun r r' => r.pattern ≠ r'.pattern := by decide

end Sys2Proof
end

