-- ==== Sys2Proof/Laws/State.lean ====
section
/-! SUPPORT. One lemma per field and update of the state, so that no proof unfolds a record update. -/

namespace Sys2Proof.Machine

variable (s : State) (k : Nat) (w : Warrior) (r : Response) (m : Memory) (i : Nat) (c : Instr) (v : Word)

@[simp] theorem State.setWarrior_core : (s.setWarrior k w).core = s.core := rfl
@[simp] theorem State.setWarrior_maxCodeSize : (s.setWarrior k w).maxCodeSize = s.maxCodeSize := rfl
@[simp] theorem State.setWarrior_warriors : (s.setWarrior k w).warriors = s.warriors.set k w := rfl
@[simp] theorem State.setWarrior_started : (s.setWarrior k w).started = s.started := rfl
@[simp] theorem State.setWarrior_faulted : (s.setWarrior k w).faulted = s.faulted := rfl
@[simp] theorem State.setWarrior_run : (s.setWarrior k w).run = s.run := rfl
@[simp] theorem State.setWarrior_requests : (s.setWarrior k w).requests = s.requests := rfl
@[simp] theorem State.setWarrior_response : (s.setWarrior k w).response = s.response := rfl

@[simp] theorem State.finishRun_core : (s.finishRun r).core = s.core := rfl
@[simp] theorem State.finishRun_maxCodeSize : (s.finishRun r).maxCodeSize = s.maxCodeSize := rfl
@[simp] theorem State.finishRun_warriors : (s.finishRun r).warriors = s.warriors := rfl
@[simp] theorem State.finishRun_started : (s.finishRun r).started = s.started := rfl
@[simp] theorem State.finishRun_faulted : (s.finishRun r).faulted = s.faulted := rfl
@[simp] theorem State.finishRun_run : (s.finishRun r).run = none := rfl
@[simp] theorem State.finishRun_requests : (s.finishRun r).requests = s.requests := rfl
@[simp] theorem State.finishRun_response : (s.finishRun r).response = some r := rfl

@[simp] theorem State.respond_core : (s.respond r).core = s.core := rfl
@[simp] theorem State.respond_maxCodeSize : (s.respond r).maxCodeSize = s.maxCodeSize := rfl
@[simp] theorem State.respond_warriors : (s.respond r).warriors = s.warriors := rfl
@[simp] theorem State.respond_started : (s.respond r).started = s.started := rfl
@[simp] theorem State.respond_faulted : (s.respond r).faulted = s.faulted := rfl
@[simp] theorem State.respond_run : (s.respond r).run = s.run := rfl
@[simp] theorem State.respond_requests : (s.respond r).requests = s.requests := rfl
@[simp] theorem State.respond_response : (s.respond r).response = some r := rfl

@[simp] theorem Memory.write_size : (m.write i c).size = m.size := rfl
@[simp] theorem Memory.write_initAMode : (m.write i c).initAMode = m.initAMode := rfl
@[simp] theorem Memory.write_initBMode : (m.write i c).initBMode = m.initBMode := rfl
@[simp] theorem Memory.write_blank : (m.write i c).blank = m.blank := rfl
@[simp] theorem Memory.writeB_size : (m.writeB i v).size = m.size := rfl
@[simp] theorem Memory.writeB_initAMode : (m.writeB i v).initAMode = m.initAMode := rfl
@[simp] theorem Memory.writeB_initBMode : (m.writeB i v).initBMode = m.initBMode := rfl
@[simp] theorem Memory.writeB_blank : (m.writeB i v).blank = m.blank := rfl
@[simp] theorem Memory.norm_write (x : Int) : (m.write i c).norm x = m.norm x := rfl

end Sys2Proof.Machine
end

