-- ==== Sys2Proof/Laws/Memory.lean ====
section
/-! SUPPORT. The core as a canonical sparse list: what a read gives after a write, and that every operation keeps the
canonical form. -/

namespace Sys2Proof.Machine

/-! ### Index arithmetic -/

theorem Memory.norm_lt {m : Memory} (h : 1 ≤ m.size) (x : Int) : m.norm x < m.size := by
  have h0 : (0 : Int) < m.size := by omega
  have h1 := Int.emod_lt_of_pos x h0
  have h2 := Int.emod_nonneg x (Int.ne_of_gt h0)
  unfold Memory.norm
  omega

theorem Memory.view_lt {m : Memory} (h : 1 ≤ m.size) (base : Nat) (off : Int) : m.view base off < m.size :=
  Memory.norm_lt h _

/-- `norm x` is congruent to `x` modulo the core's size (R15). -/
theorem Memory.norm_dvd_sub {m : Memory} (h : 1 ≤ m.size) (x : Int) : (m.size : Int) ∣ x - (m.norm x : Int) := by
  have h2 := Int.emod_nonneg x (show (m.size : Int) ≠ 0 by omega)
  rw [show (m.norm x : Int) = x % m.size by unfold Memory.norm; omega]
  exact Int.dvd_self_sub_emod

/-! ### The listed cells -/

theorem lookup_insertCell (i j : Nat) (c : Instr) (l : List (Nat × Instr)) :
    lookupCell j (insertCell i c l) = if j = i then some c else lookupCell j l := by
  induction l with
  | nil => simp [insertCell, lookupCell, eq_comm]
  | cons e t ih =>
    obtain ⟨n, d⟩ := e
    by_cases h1 : i < n
    · by_cases h : j = i
      · simp [insertCell, lookupCell, h1, h]
      · simp [insertCell, lookupCell, h1, h, Ne.symm h]
    · by_cases h2 : i = n
      · subst h2
        by_cases h : j = i
        · simp [insertCell, lookupCell, h]
        · simp [insertCell, lookupCell, h, Ne.symm h]
      · simp only [insertCell, h1, h2, if_false, lookupCell, ih]
        by_cases h : j = i
        · subst h; simp [Ne.symm h2]
        · simp [h]

theorem lookup_eraseCell_other {i j : Nat} (h : j ≠ i) (l : List (Nat × Instr)) :
    lookupCell j (eraseCell i l) = lookupCell j l := by
  induction l with
  | nil => rfl
  | cons e t ih =>
    obtain ⟨n, d⟩ := e
    by_cases h2 : i = n
    · subst h2; simp [eraseCell, lookupCell, Ne.symm h]
    · simp [eraseCell, lookupCell, h2, ih]

/-- Nothing is listed below the first index of a rising list. -/
theorem lookup_below {low bound : Nat} {l : List (Nat × Instr)} (h : risingFrom low bound l = true) {j : Nat}
    (hj : j < low) : lookupCell j l = none := by
  induction l generalizing low with
  | nil => rfl
  | cons e t ih =>
    obtain ⟨n, d⟩ := e
    simp only [risingFrom, Bool.and_eq_true, decide_eq_true_eq] at h
    obtain ⟨⟨h1, -⟩, h3⟩ := h
    rw [lookupCell, if_neg (by omega)]
    exact ih h3 (by omega)

theorem lookup_eraseCell_same {low bound : Nat} {l : List (Nat × Instr)} (h : risingFrom low bound l = true)
    (i : Nat) : lookupCell i (eraseCell i l) = none := by
  induction l generalizing low with
  | nil => rfl
  | cons e t ih =>
    obtain ⟨n, d⟩ := e
    simp only [risingFrom, Bool.and_eq_true, decide_eq_true_eq] at h
    obtain ⟨-, h3⟩ := h
    by_cases h2 : i = n
    · subst h2
      simpa [eraseCell] using lookup_below h3 (Nat.lt_succ_self i)
    · simpa [eraseCell, lookupCell, h2, Ne.symm h2] using ih h3

theorem rising_weaken {low low' bound : Nat} {l : List (Nat × Instr)} (h : risingFrom low bound l = true)
    (hl : low' ≤ low) : risingFrom low' bound l = true := by
  cases l with
  | nil => rfl
  | cons e t =>
    simp only [risingFrom, Bool.and_eq_true, decide_eq_true_eq] at h ⊢
    exact ⟨⟨by omega, h.1.2⟩, h.2⟩

theorem rising_insertCell {low bound i : Nat} {l : List (Nat × Instr)} (c : Instr)
    (h : risingFrom low bound l = true) (hl : low ≤ i) (hb : i < bound) :
    risingFrom low bound (insertCell i c l) = true := by
  induction l generalizing low with
  | nil => simp [insertCell, risingFrom, hl, hb]
  | cons e t ih =>
    obtain ⟨n, d⟩ := e
    simp only [risingFrom, Bool.and_eq_true, decide_eq_true_eq] at h
    obtain ⟨⟨h1, h2⟩, h3⟩ := h
    unfold insertCell
    split
    · simp only [risingFrom, Bool.and_eq_true, decide_eq_true_eq]
      exact ⟨⟨hl, hb⟩, ⟨by omega, h2⟩, h3⟩
    · split
      · rename_i hn; subst hn
        simp only [risingFrom, Bool.and_eq_true, decide_eq_true_eq]
        exact ⟨⟨hl, hb⟩, h3⟩
      · simp only [risingFrom, Bool.and_eq_true, decide_eq_true_eq]
        exact ⟨⟨h1, h2⟩, ih h3 (by omega)⟩

theorem rising_eraseCell {low bound : Nat} {l : List (Nat × Instr)} (i : Nat)
    (h : risingFrom low bound l = true) : risingFrom low bound (eraseCell i l) = true := by
  induction l generalizing low with
  | nil => rfl
  | cons e t ih =>
    obtain ⟨n, d⟩ := e
    simp only [risingFrom, Bool.and_eq_true, decide_eq_true_eq] at h
    obtain ⟨⟨h1, h2⟩, h3⟩ := h
    unfold eraseCell
    split
    · exact rising_weaken h3 (by omega)
    · simp only [risingFrom, Bool.and_eq_true, decide_eq_true_eq]
      exact ⟨⟨h1, h2⟩, ih h3⟩

theorem mem_insertCell {i : Nat} {c : Instr} {l : List (Nat × Instr)} {e : Nat × Instr}
    (h : e ∈ insertCell i c l) : e.2 = c ∨ e ∈ l := by
  induction l with
  | nil => simp [insertCell] at h; exact .inl (by rw [h])
  | cons d t ih =>
    obtain ⟨n, d⟩ := d
    unfold insertCell at h
    split at h
    · rcases List.mem_cons.1 h with h | h
      · exact .inl (by rw [h])
      · exact .inr h
    · split at h
      · rcases List.mem_cons.1 h with h | h
        · exact .inl (by rw [h])
        · exact .inr (List.mem_cons_of_mem _ h)
      · rcases List.mem_cons.1 h with h | h
        · exact .inr (by rw [h]; exact List.mem_cons_self)
        · exact (ih h).imp_right (List.mem_cons_of_mem _)

theorem mem_eraseCell {i : Nat} {l : List (Nat × Instr)} {e : Nat × Instr} (h : e ∈ eraseCell i l) : e ∈ l := by
  induction l with
  | nil => simp [eraseCell] at h
  | cons d t ih =>
    unfold eraseCell at h
    split at h
    · exact List.mem_cons_of_mem _ h
    · rcases List.mem_cons.1 h with h | h
      · exact h ▸ List.mem_cons_self
      · exact List.mem_cons_of_mem _ (ih h)

/-! ### The core -/

theorem Memory.isBlank_iff (m : Memory) (c : Instr) : m.isBlank c = true ↔ c = m.blank := by
  cases c <;> simp [Memory.isBlank, Memory.blank]
  rename_i ma a mb b
  exact ⟨fun ⟨⟨⟨h1, h2⟩, h3⟩, h4⟩ => ⟨h3, h1, h4, h2⟩, fun ⟨h3, h1, h4, h2⟩ => ⟨⟨⟨h1, h2⟩, h3⟩, h4⟩⟩

/-- What the canonical form says. -/
theorem Memory.wf_iff (m : Memory) : m.wf = true ↔
    1 ≤ m.size ∧ risingFrom 0 m.size m.cells = true ∧ ∀ c ∈ m.cells, c.2 ≠ m.blank := by
  simp [Memory.wf, and_assoc, ← Memory.isBlank_iff]

theorem Memory.size_pos {m : Memory} (h : m.wf = true) : 1 ≤ m.size := ((Memory.wf_iff m).1 h).1

/-- A write inside the core keeps the canonical form. -/
theorem Memory.write_wf {m : Memory} (h : m.wf = true) {i : Nat} (hi : i < m.size) (c : Instr) :
    (m.write i c).wf = true := by
  obtain ⟨h1, h2, h3⟩ := (Memory.wf_iff m).1 h
  refine (Memory.wf_iff _).2 ⟨h1, ?_, ?_⟩
  · unfold Memory.write
    split
    · exact rising_eraseCell i h2
    · exact rising_insertCell c h2 (Nat.zero_le i) hi
  · rw [Memory.write_blank]
    unfold Memory.write
    split
    · exact fun e he => h3 e (mem_eraseCell he)
    · rename_i hc
      rw [Memory.isBlank_iff] at hc
      intro e he
      rcases mem_insertCell he with h' | h'
      · exact h' ▸ hc
      · exact h3 e h'

/-- What a read gives after a write (R46, R52). -/
theorem Memory.read_write {m : Memory} (h : m.wf = true) (i j : Nat) (c : Instr) :
    (m.write i c).read j = if j = i then c else m.read j := by
  obtain ⟨-, h2, -⟩ := (Memory.wf_iff m).1 h
  rw [Memory.read, Memory.write_blank]
  unfold Memory.write
  simp only [Memory.isBlank_iff]
  by_cases hc : c = m.blank
  · simp only [hc, if_true]
    by_cases hj : j = i
    · subst hj; simp [lookup_eraseCell_same h2]
    · simp [hj, lookup_eraseCell_other hj, Memory.read]
  · simp only [hc, if_false, lookup_insertCell]
    by_cases hj : j = i <;> simp [hj, Memory.read]

theorem Memory.writeB_wf {m : Memory} (h : m.wf = true) {i : Nat} (hi : i < m.size) (v : Word) :
    (m.writeB i v).wf = true := Memory.write_wf h hi _

/-- What a read gives after a write of a B-field (R47, R52). -/
theorem Memory.read_writeB {m : Memory} (h : m.wf = true) (i j : Nat) (v : Word) :
    (m.writeB i v).read j = if j = i then (m.read i).withB v else m.read j := Memory.read_write h i j _

/-- The B-field write keeps the other four fields (R47). -/
theorem withB_fields (i : Instr) (v : Word) : (i.withB v).op = i.op ∧ (i.withB v).amode = i.amode ∧
    (i.withB v).a = i.a ∧ (i.withB v).bmode = i.bmode ∧ (i.withB v).b = v := by
  cases i <;> exact ⟨rfl, rfl, rfl, rfl, rfl⟩

@[simp] theorem withB_b (i : Instr) (v : Word) : (i.withB v).b = v := (withB_fields i v).2.2.2.2

/-- Two cores in canonical form with the same parameters and the same cells are equal data. -/
theorem lookup_ext {low bound : Nat} {l l' : List (Nat × Instr)} (h : risingFrom low bound l = true)
    (h' : risingFrom low bound l' = true) (he : ∀ i, lookupCell i l = lookupCell i l') : l = l' := by
  induction l generalizing low l' with
  | nil =>
    cases l' with
    | nil => rfl
    | cons e t => obtain ⟨n, d⟩ := e; simpa [lookupCell] using he n
  | cons e t ih =>
    obtain ⟨n, d⟩ := e
    simp only [risingFrom, Bool.and_eq_true, decide_eq_true_eq] at h
    cases l' with
    | nil => simpa [lookupCell] using he n
    | cons e' t' =>
      obtain ⟨n', d'⟩ := e'
      simp only [risingFrom, Bool.and_eq_true, decide_eq_true_eq] at h'
      have hn : n = n' := by
        by_contra hne
        rcases Nat.lt_or_ge n n' with hlt | hge
        · have := he n
          rw [lookupCell, if_pos rfl, lookupCell, if_neg (by omega),
            lookup_below h'.2 (by omega)] at this
          exact absurd this (by simp)
        · have := he n'
          rw [lookupCell, if_neg (by omega), lookup_below h.2 (by omega), lookupCell, if_pos rfl] at this
          exact absurd this (by simp)
      subst hn
      have hd := he n
      simp only [lookupCell, if_true, Option.some.injEq] at hd
      subst hd
      rw [ih h.2 h'.2 fun i => ?_]
      by_cases hi : i = n
      · subst hi; rw [lookup_below h.2 (by omega), lookup_below h'.2 (by omega)]
      · simpa [lookupCell, Ne.symm hi] using he i

@[simp] theorem Memory.writeProgram_size (m : Memory) (i : Nat) (p : List Instr) :
    (m.writeProgram i p).size = m.size := by
  induction p generalizing m i with
  | nil => rfl
  | cons c p ih => rw [Memory.writeProgram, ih, Memory.write_size]

@[simp] theorem Memory.writeProgram_blank (m : Memory) (i : Nat) (p : List Instr) :
    (m.writeProgram i p).blank = m.blank := by
  induction p generalizing m i with
  | nil => rfl
  | cons c p ih => rw [Memory.writeProgram, ih, Memory.write_blank]

theorem Memory.writeProgram_wf {m : Memory} (h : m.wf = true) {i : Nat} {p : List Instr}
    (hp : i + p.length ≤ m.size) : (m.writeProgram i p).wf = true := by
  induction p generalizing m i with
  | nil => exact h
  | cons c p ih =>
    rw [List.length_cons] at hp
    exact ih (Memory.write_wf h (by omega) c) (by rw [Memory.write_size]; omega)

end Sys2Proof.Machine
end

