-- ==== Sys2Proof/Laws/Operands.lean ====
section
/-! SUPPORT. The circular memory view: a resolved cell lies inside the core, and what the two writes do. -/

namespace Sys2Proof.Machine

/-- Everything `resolve` can answer (R39, R49, R51): a literal under `#` alone, and otherwise a cell of the core. -/
theorem resolve_cases {m : Memory} (h : 1 ≤ m.size) (base : Nat) (mode : Mode) (v : Word) :
    (mode = .immediate ∧ resolve m base mode v = .imm v) ∨
      (mode ≠ .immediate ∧ ∃ i < m.size, resolve m base mode v = .cell i) := by
  cases mode with
  | immediate => exact .inl ⟨rfl, rfl⟩
  | direct => exact .inr ⟨by decide, _, Memory.view_lt h _ _, rfl⟩
  | indirect => exact .inr ⟨by decide, _, Memory.view_lt h _ _, rfl⟩

theorem resolve_cell_lt {m : Memory} (h : 1 ≤ m.size) {base : Nat} {mode : Mode} {v : Word} {i : Nat}
    (hr : resolve m base mode v = .cell i) : i < m.size := by
  rcases resolve_cases h base mode v with ⟨-, h'⟩ | ⟨-, j, hj, h'⟩
  · rw [h'] at hr; exact absurd hr (by simp)
  · rw [h', Operand.cell.injEq] at hr; exact hr ▸ hj

theorem jumpTarget_lt {m : Memory} (h : 1 ≤ m.size) (base : Nat) (ma : Mode) (a : Word) :
    jumpTarget m base ma a < m.size := by
  rcases resolve_cases h base ma a with ⟨-, h'⟩ | ⟨-, j, hj, h'⟩
  · rw [jumpTarget, h']; exact Memory.view_lt h _ _
  · rw [jumpTarget, h']; exact hj

/-- What a core operation of one instruction can do: leave the core, or write the one cell the operand addresses
(R46 to R48, R76). -/
def WritesOnly (m m' : Memory) (r : Operand) : Prop := m' = m ∨ ∃ i < m.size, r = .cell i ∧ ∃ c, m' = m.write i c

theorem writeCell_spec {m : Memory} (h : 1 ≤ m.size) (base : Nat) (mode : Mode) (v : Word) (c : Instr) :
    WritesOnly m (writeCell m (resolve m base mode v) c) (resolve m base mode v) := by
  rcases resolve_cases h base mode v with ⟨-, h'⟩ | ⟨-, j, hj, h'⟩
  · rw [h']; exact .inl rfl
  · rw [h']; exact .inr ⟨j, hj, rfl, c, rfl⟩

theorem writeB_spec {m : Memory} (h : 1 ≤ m.size) (base : Nat) (mode : Mode) (v x : Word) :
    WritesOnly m (writeB m (resolve m base mode v) x) (resolve m base mode v) := by
  rcases resolve_cases h base mode v with ⟨-, h'⟩ | ⟨-, j, hj, h'⟩
  · rw [h']; exact .inl rfl
  · rw [h']; exact .inr ⟨j, hj, rfl, _, rfl⟩

/-- What a read gives after a whole-cell write through an operand (R46, R48). -/
theorem read_writeCell {m : Memory} (h : m.wf = true) (r : Operand) (c : Instr) (j : Nat) :
    (writeCell m r c).read j = if r = .cell j then c else m.read j := by
  cases r with
  | imm v => simp [writeCell]
  | cell i => simp [writeCell, Memory.read_write h, eq_comm]

/-- What a read gives after a B-field write through an operand (R47, R48). -/
theorem read_writeB {m : Memory} (h : m.wf = true) (r : Operand) (x : Word) (j : Nat) :
    (writeB m r x).read j = if r = .cell j then (m.read j).withB x else m.read j := by
  cases r with
  | imm v => simp [writeB]
  | cell i =>
    simp only [writeB, Memory.read_writeB h, Operand.cell.injEq]
    by_cases hj : j = i
    · subst hj; simp
    · simp [hj, Ne.symm hj]

/-- Every cell the operand does not address reads as before (R46 to R48). -/
theorem WritesOnly.read {m m' : Memory} {r : Operand} (h : WritesOnly m m' r) (hw : m.wf = true) {j : Nat}
    (hj : r ≠ .cell j) : m'.read j = m.read j := by
  rcases h with rfl | ⟨i, -, rfl, c, rfl⟩
  · rfl
  · rw [Memory.read_write hw, if_neg fun e : j = i => hj (e ▸ rfl)]

theorem WritesOnly.size {m m' : Memory} {r : Operand} (h : WritesOnly m m' r) : m'.size = m.size := by
  rcases h with rfl | ⟨i, -, -, c, rfl⟩ <;> rfl

theorem WritesOnly.initAMode {m m' : Memory} {r : Operand} (h : WritesOnly m m' r) : m'.initAMode = m.initAMode := by
  rcases h with rfl | ⟨i, -, -, c, rfl⟩ <;> rfl

theorem WritesOnly.initBMode {m m' : Memory} {r : Operand} (h : WritesOnly m m' r) : m'.initBMode = m.initBMode := by
  rcases h with rfl | ⟨i, -, -, c, rfl⟩ <;> rfl

theorem WritesOnly.wf {m m' : Memory} {r : Operand} (h : WritesOnly m m' r) (hw : m.wf = true) : m'.wf = true := by
  rcases h with rfl | ⟨i, hi, -, c, rfl⟩
  · exact hw
  · exact Memory.write_wf hw hi c

end Sys2Proof.Machine
end

