-- ==== Sys2Proof/Laws/PerInstr.lean ====
section
/-! SUPPORT. Statements about every instruction as syntax, one lemma per constructor. -/

namespace Sys2Proof.Laws.EncodesLegally

/-- The record of an instruction is legal in the sense of R72 (R66, R71), and is admitted by no row of the opcode table
but its own opcode's. -/
def Statement (i : Instr) : Prop :=
  WellFormed.recordLegal (encode i) = true ∧
    (WellFormed.opcodeTable.filter (·.admits (encode i))).map (·.op) = [i.op]

/-- The statement for a record whose opcode bytes are those of `i`, from the row matched. -/
theorem of_row (i : Instr) {o0 o1 o2 : Byte} (ho : i.op.ascii = [o0, o1, o2])
    (hrow : ∀ x : List Byte, x.length = 10 →
      (WellFormed.opcodeTable.filter (·.admits (o0 :: o1 :: o2 :: 0x00 :: x))).map (·.op) = [i.op]) :
    Statement i := by
  obtain ⟨p0, p1, p2, hp, he⟩ := encode_bytes i
  rw [ho, List.cons.injEq, List.cons.injEq, List.cons.injEq] at hp
  obtain ⟨rfl, rfl, rfl, -⟩ := hp
  have hf := hrow (le32 i.a ++ le32 i.b ++ [modeByte i.amode] ++ [modeByte i.bmode]) rfl
  have hb : encode i = o0 :: o1 :: o2 :: 0x00 ::
      (le32 i.a ++ le32 i.b ++ [modeByte i.amode] ++ [modeByte i.bmode]) := he
  refine ⟨?_, hb ▸ hf⟩
  have hm : ∀ m, WellFormed.modeByteLegal (modeByte m) = true := by intro m; cases m <;> decide
  have hany : WellFormed.opcodeTable.any (·.admits (encode i)) = true := by
    rw [hb, List.any_eq_true]
    cases hl : WellFormed.opcodeTable.filter (·.admits (o0 :: o1 :: o2 :: 0x00 ::
        (le32 i.a ++ le32 i.b ++ [modeByte i.amode] ++ [modeByte i.bmode]))) with
    | nil => rw [hl] at hf; simp at hf
    | cons r t => exact ⟨r, List.mem_filter.1 (hl ▸ List.mem_cons_self)⟩
  simp only [WellFormed.recordLegal, encode_length, hany, decide_true, Bool.true_and, Bool.and_eq_true]
  rw [he]
  simp [hm]

theorem mov (ma : Mode) (a : Word) (mb : Mode) (b : Word) : Statement (.mov ma a mb b) :=
  of_row _ rfl fun x h => by
    simp [WellFormed.opcodeTable, admits_ofPrefix, h, Instr.op, ofPrefix_op]

theorem add (ma : Mode) (a : Word) (mb : Mode) (b : Word) : Statement (.add ma a mb b) :=
  of_row _ rfl fun x h => by
    simp [WellFormed.opcodeTable, admits_ofPrefix, h, Instr.op, ofPrefix_op]

theorem jmp (ma : Mode) (a : Word) (mb : Mode) (b : Word) : Statement (.jmp ma a mb b) :=
  of_row _ rfl fun x h => by
    simp [WellFormed.opcodeTable, admits_ofPrefix, h, Instr.op, ofPrefix_op]

theorem cmp (ma : Mode) (a : Word) (mb : Mode) (b : Word) : Statement (.cmp ma a mb b) :=
  of_row _ rfl fun x h => by
    simp [WellFormed.opcodeTable, admits_ofPrefix, h, Instr.op, ofPrefix_op]

theorem slt (ma : Mode) (a : Word) (mb : Mode) (b : Word) : Statement (.slt ma a mb b) :=
  of_row _ rfl fun x h => by
    simp [WellFormed.opcodeTable, admits_ofPrefix, h, Instr.op, ofPrefix_op]

theorem dat (ma : Mode) (a : Word) (mb : Mode) (b : Word) : Statement (.dat ma a mb b) :=
  of_row _ rfl fun x h => by
    simp [WellFormed.opcodeTable, admits_ofPrefix, h, Instr.op, ofPrefix_op]

end Sys2Proof.Laws.EncodesLegally
end

