-- ==== Sys2Proof/Laws/Turn.lean ====
section
/-! SUPPORT. What a turn can do (R76, R93, R94), what elimination can do (R91, R97, R98), what the scheduler's move
can do (R103), and from these what a step can do: the one inversion lemma each that later proofs cite. -/

namespace Sys2Proof.Machine

/-! ### The instruction -/

/-- `Execute(inst, core, base)` (R76, R77) as a function. -/
def execute : Instr → Memory → Nat → Memory × Result
  | .mov ma a mb b => movEffect ma a mb b
  | .add ma a mb b => addEffect ma a mb b
  | .jmp ma a _ _ => jmpEffect ma a
  | .cmp ma a mb b => cmpEffect ma a mb b
  | .slt ma a mb b => sltEffect ma a mb b
  | .dat _ _ _ _ => datEffect

/-- Every arm of `exec` is a turn that runs `execute`. -/
theorem exec_eq_takeTurn (i : Instr) (s : State) : exec i s = s.takeTurn (execute i) := by cases i <;> rfl

theorem movEffect_spec {m : Memory} (h : 1 ≤ m.size) (ma : Mode) (a : Word) (mb : Mode) (b : Word) (base : Nat) :
    WritesOnly m (movEffect ma a mb b m base).1 (resolve m base mb b) ∧ (movEffect ma a mb b m base).2 = .next := by
  unfold movEffect
  dsimp only
  split
  · exact ⟨writeB_spec h _ _ _ _, rfl⟩
  · exact ⟨writeCell_spec h _ _ _ _, rfl⟩

/-- Everything an instruction can do to the core (R21, R76): only MOV and ADD write, and only the cell that
operand B addresses. -/
theorem execute_core {m : Memory} (h : 1 ≤ m.size) (i : Instr) (base : Nat) :
    (execute i m base).1 = m ∨
      ((i.op = .mov ∨ i.op = .add) ∧ WritesOnly m (execute i m base).1 (resolve m base i.bmode i.b)) := by
  cases i with
  | mov ma a mb b => exact .inr ⟨.inl rfl, (movEffect_spec h ma a mb b base).1⟩
  | add ma a mb b => exact .inr ⟨.inr rfl, writeB_spec h _ _ _ _⟩
  | jmp ma a mb b => exact .inl rfl
  | cmp ma a mb b => exact .inl rfl
  | slt ma a mb b => exact .inl rfl
  | dat ma a mb b => exact .inl rfl

theorem execute_writes {m : Memory} (h : 1 ≤ m.size) (i : Instr) (base : Nat) :
    WritesOnly m (execute i m base).1 (resolve m base i.bmode i.b) := (execute_core h i base).elim .inl (·.2)

/-- Everything an instruction can answer (R76, R86): elimination by DAT alone, a jump only to a cell of the core. -/
theorem execute_result {m : Memory} (h : 1 ≤ m.size) (i : Instr) (base : Nat) :
    (i.op = .dat ∧ (execute i m base).2 = .eliminate) ∨
      (i.op ≠ .dat ∧ ((execute i m base).2 = .next ∨ (execute i m base).2 = .skip ∨
        ∃ t < m.size, (execute i m base).2 = .jump t)) := by
  cases i with
  | mov ma a mb b => exact .inr ⟨by simp [Instr.op], .inl (movEffect_spec h ma a mb b base).2⟩
  | add ma a mb b => exact .inr ⟨by simp [Instr.op], .inl rfl⟩
  | jmp ma a mb b => exact .inr ⟨by simp [Instr.op], .inr (.inr ⟨_, jumpTarget_lt h base ma a, rfl⟩)⟩
  | cmp ma a mb b =>
    refine .inr ⟨by simp [Instr.op], ?_⟩
    simp only [execute, cmpEffect]
    split <;> simp
  | slt ma a mb b =>
    refine .inr ⟨by simp [Instr.op], ?_⟩
    simp only [execute, sltEffect]
    split <;> simp
  | dat ma a mb b => exact .inl ⟨rfl, rfl⟩

/-! ### The turn -/

theorem turn_eq_some {s : State} {k : Nat} {w : Warrior} (h : s.turn = some (k, w)) :
    s.run.map (·.k) = some k ∧ s.warriors[k]? = some w ∧ w.alive = true := by
  unfold State.turn at h
  split at h
  · cases h
  · rename_i r hr
    split at h
    · cases h
    · rename_i w' hw
      split at h
      · rename_i ha
        cases h
        exact ⟨by simp [hr], hw, ha⟩
      · cases h

theorem HasTurn.turn {s : State} {k : Nat} {w : Warrior} (h : HasTurn s k w) : s.turn = some (k, w) := by
  obtain ⟨h1, h2, h3, -⟩ := h
  obtain ⟨r, hr, rfl⟩ := Option.map_eq_some_iff.1 h1
  simp [State.turn, hr, h2, h3]

/-- A meaning answers with a next state exactly when a warrior has the turn, and with this one. -/
theorem takeTurn_next_iff (s t : State) (f : Memory → Nat → Memory × Result) : s.takeTurn f = .next t ↔
    ∃ k w, HasTurn s k w ∧
      t = { s with core := (f s.core w.address).1 }.applyResult k w (f s.core w.address).2 := by
  constructor
  · intro h
    unfold State.takeTurn at h
    split at h
    · cases h
    · rename_i k w hw
      split at h
      · rename_i hc
        cases h
        obtain ⟨h1, h2, h3⟩ := turn_eq_some hw
        exact ⟨k, w, ⟨h1, h2, h3, hc⟩, rfl⟩
      · cases h
  · rintro ⟨k, w, h, rfl⟩
    simp [State.takeTurn, h.turn, h.inCore]

theorem HasTurn.takeTurn {s : State} {k : Nat} {w : Warrior} (h : HasTurn s k w)
    (f : Memory → Nat → Memory × Result) : s.takeTurn f =
      .next ({ s with core := (f s.core w.address).1 }.applyResult k w (f s.core w.address).2) :=
  (takeTurn_next_iff _ _ _).2 ⟨k, w, h, rfl⟩

theorem HasTurn.size_pos {s : State} {k : Nat} {w : Warrior} (h : HasTurn s k w) : 1 ≤ s.core.size := by
  have := h.inCore; omega

/-! ### Elimination -/

/-- Everything the termination check can do (R97, R98). -/
theorem checkTermination_cases (s : State) (k : Nat) :
    (s.liveCount = 1 ∧ s.checkTermination k = s.finishRun (.winner s.survivor)) ∨
      (s.liveCount = 0 ∧
        s.checkTermination k = { s with faulted := true }.finishRun (.error (.fatalDrawError k))) ∨
      (2 ≤ s.liveCount ∧ s.checkTermination k = s) := by
  unfold State.checkTermination
  split
  · exact .inl ⟨‹_›, rfl⟩
  · split
    · exact .inr (.inl ⟨‹_›, rfl⟩)
    · exact .inr (.inr ⟨by omega, rfl⟩)

/-- What elimination leaves as it is (R91): it writes `alive`, and beside that `FAULTED`, the Run and the response. -/
theorem eliminate_frame (s : State) (k : Nat) (w : Warrior) :
    (s.eliminate k w).core = s.core ∧ (s.eliminate k w).maxCodeSize = s.maxCodeSize ∧
      (s.eliminate k w).warriors = s.warriors.set k { w with alive := false } ∧
      (s.eliminate k w).started = s.started ∧ (s.eliminate k w).requests = s.requests := by
  unfold State.eliminate
  rcases checkTermination_cases (s.setWarrior k { w with alive := false }) k with ⟨-, h⟩ | ⟨-, h⟩ | ⟨-, h⟩ <;>
    rw [h] <;> exact ⟨rfl, rfl, rfl, rfl, rfl⟩

/-- Everything the update by a result can do when the result is no elimination (R94). -/
theorem applyResult_moves {s : State} (hs : 1 ≤ s.core.size) (k : Nat) (w : Warrior) {r : Result}
    (hr : r = .next ∨ r = .skip ∨ ∃ t < s.core.size, r = .jump t) :
    ∃ a < s.core.size, s.applyResult k w r = s.setWarrior k { w with address := a } := by
  rcases hr with rfl | rfl | ⟨t, ht, rfl⟩
  · exact ⟨_, Memory.norm_lt hs _, rfl⟩
  · exact ⟨_, Memory.norm_lt hs _, rfl⟩
  · exact ⟨t, ht, rfl⟩

/-- Everything an instruction can do in a turn (R76, R91, R94): DAT eliminates; every other one writes at most the
cell that operand B addresses and moves its own warrior. -/
theorem exec_next_cases {i : Instr} {s t : State} (h : exec i s = .next t) : ∃ k w, HasTurn s k w ∧
    ((i.op = .dat ∧ t = s.eliminate k w) ∨
      (i.op ≠ .dat ∧ ∃ m', m' = (execute i s.core w.address).1 ∧
        WritesOnly s.core m' (resolve s.core w.address i.bmode i.b) ∧
        ∃ a < s.core.size, t = { s with core := m' }.setWarrior k { w with address := a })) := by
  rw [exec_eq_takeTurn] at h
  obtain ⟨k, w, hk, rfl⟩ := (takeTurn_next_iff _ _ _).1 h
  refine ⟨k, w, hk, ?_⟩
  have hw := execute_writes hk.size_pos i w.address
  rcases execute_result hk.size_pos i w.address with ⟨hd, hr⟩ | ⟨hd, hr⟩
  · refine .inl ⟨hd, ?_⟩
    rcases execute_core hk.size_pos i w.address with hc | ⟨hc, -⟩
    · rw [hr, hc]; rfl
    · rcases hc with hc | hc <;> rw [hd] at hc <;> cases hc
  · refine .inr ⟨hd, _, rfl, hw, ?_⟩
    have hs : 1 ≤ ({ s with core := (execute i s.core w.address).1 } : State).core.size := by
      rw [hw.size]; exact hk.size_pos
    obtain ⟨a, ha, he⟩ := applyResult_moves hs k w (r := (execute i s.core w.address).2)
      (by simpa only [hw.size] using hr)
    exact ⟨a, by simpa only [hw.size] using ha, he⟩

/-! ### The scheduler -/

/-- Everything the scheduler's move can do (R99, R103). -/
theorem advance_cases (s : State) :
    (s.run = none ∧ s.advance = s) ∨
      ∃ r, s.run = some r ∧
        ((r.k + 1 < s.warriors.length ∧ s.advance = { s with run := some { r with k := r.k + 1 } }) ∨
          (s.warriors.length ≤ r.k + 1 ∧ 1 < r.ticksLeft ∧
            s.advance = { s with run := some { ticksLeft := r.ticksLeft - 1, k := 0 } }) ∨
          (s.warriors.length ≤ r.k + 1 ∧ r.ticksLeft ≤ 1 ∧ s.advance = s.finishRun .noWinner)) := by
  unfold State.advance
  split
  · exact .inl ⟨‹_›, rfl⟩
  · rename_i r hr
    refine .inr ⟨r, hr, ?_⟩
    split
    · exact .inl ⟨‹_›, rfl⟩
    · split
      · exact .inr (.inl ⟨by omega, ‹_›, rfl⟩)
      · exact .inr (.inr ⟨by omega, by omega, rfl⟩)

/-- What the scheduler's move leaves as it is (R103): all but the Run and the response. -/
theorem advance_frame (s : State) : s.advance = { s with run := s.advance.run, response := s.advance.response } := by
  rcases advance_cases s with ⟨-, h⟩ | ⟨r, -, ⟨-, h⟩ | ⟨-, -, h⟩ | ⟨-, -, h⟩⟩
  · rw [h]
  · simp [h]
  · simp [h]
  · simp [h, State.finishRun]

theorem HasTurn.slot {s : State} {k : Nat} {w : Warrior} (h : HasTurn s k w) :
    s.slot = .turn (s.core.read w.address) := by
  obtain ⟨r, hr, -⟩ := Option.map_eq_some_iff.1 h.position
  simp [State.slot, hr, h.turn, h.inCore]

/-- Everything the scheduler can find (R93, R96). -/
theorem slot_cases (s : State) :
    (s.run = none ∧ s.slot = .idle) ∨
      (∃ r, s.run = some r ∧ s.turn = none ∧ s.slot = .skip) ∨
      (∃ k w, HasTurn s k w ∧ s.slot = .turn (s.core.read w.address)) ∨
      (∃ k w, s.turn = some (k, w) ∧ s.core.size ≤ w.address ∧ s.slot = .noCell w.address) := by
  cases hr : s.run with
  | none => exact .inl ⟨rfl, by simp [State.slot, hr]⟩
  | some r =>
    refine .inr ?_
    cases ht : s.turn with
    | none => exact .inl ⟨r, rfl, rfl, by simp [State.slot, hr, ht]⟩
    | some p =>
      obtain ⟨k, w⟩ := p
      obtain ⟨h1, h2, h3⟩ := turn_eq_some ht
      by_cases hc : w.address < s.core.size
      · exact .inr (.inl ⟨k, w, ⟨h1, h2, h3, hc⟩, by simp [State.slot, hr, ht, hc]⟩)
      · exact .inr (.inr ⟨k, w, rfl, by omega, by simp [State.slot, hr, ht, hc]⟩)

/-- The outcome of a turn, moved on, is a next state only if the turn's is. -/
theorem advanceOutcome_next {o : Host.Outcome State Fault Refusal} {t : State}
    (h : advanceOutcome o = .next t) : ∃ t', o = .next t' ∧ t = t'.advance := by
  cases o with
  | next t' => cases h; exact ⟨t', rfl, rfl⟩
  | fault f => cases h
  | refused r => cases h

/-- Everything a step can do: serve the host, pass over the position, or run the fetched instruction of the warrior
whose turn it is and move on. -/
theorem step_next_cases {s t : State} (h : step s = .next t) :
    (s.run = none ∧ t = s.serve) ∨
      (∃ r, s.run = some r ∧ s.turn = none ∧ t = s.advance) ∨
      (∃ k w u, HasTurn s k w ∧ exec (s.core.read w.address) s = .next u ∧ t = u.advance) := by
  unfold step at h
  rcases slot_cases s with ⟨hr, hs⟩ | ⟨r, hr, ht, hs⟩ | ⟨k, w, hk, hs⟩ | ⟨k, w, -, -, hs⟩
  · rw [hs] at h; cases h; exact .inl ⟨hr, rfl⟩
  · rw [hs] at h; cases h; exact .inr (.inl ⟨r, hr, ht, rfl⟩)
  · rw [hs] at h
    obtain ⟨u, hu, rfl⟩ := advanceOutcome_next h
    exact .inr (.inr ⟨k, w, u, hk, hu, rfl⟩)
  · rw [hs] at h; cases h

end Sys2Proof.Machine
end

