-- ==== Sys2Proof/Laws/Run.lean ====
section
/-! SUPPORT. Sequences of steps: one step and then the rest, and the concatenation of two sequences. The lemmas stand
for any machine of the host's interface first, then for this one. -/

namespace Sys2Proof.Machine

theorem hostRun_succ (M : Host.Core) {s t : M.State} (h : M.step s = .next t) (n : Nat) :
    M.run (n + 1) s = M.run n t := by rw [Host.Core.run, h]

/-- A sequence of steps that answers with a next state has a first step that does. -/
theorem hostRun_succ_next (M : Host.Core) {s t : M.State} {n : Nat} (h : M.run (n + 1) s = .next t) :
    ∃ u, M.step s = .next u ∧ M.run n u = .next t := by
  rw [Host.Core.run] at h
  cases hs : M.step s with
  | next u => rw [hs] at h; exact ⟨u, rfl, h⟩
  | fault f => rw [hs] at h; cases h
  | refused r => rw [hs] at h; cases h

theorem run_zero (s : State) : Sys2Proof.core.run 0 s = .next s := rfl

/-- A step that answers with a next state, followed by `n` more. -/
theorem run_succ_of_step {s t : State} (h : step s = .next t) (n : Nat) :
    Sys2Proof.core.run (n + 1) s = Sys2Proof.core.run n t := hostRun_succ Sys2Proof.core h n

theorem run_succ_next {s t : State} {n : Nat} (h : Sys2Proof.core.run (n + 1) s = .next t) :
    ∃ u, step s = .next u ∧ Sys2Proof.core.run n u = .next t := hostRun_succ_next Sys2Proof.core h

/-- Runs concatenate. -/
theorem run_add {s t : State} {n : Nat} (h : Sys2Proof.core.run n s = .next t) (m : Nat) :
    Sys2Proof.core.run (n + m) s = Sys2Proof.core.run m t := by
  induction n generalizing s with
  | zero => cases h; rw [Nat.zero_add]
  | succ n ih =>
    obtain ⟨u, hu, hn⟩ := run_succ_next h
    rw [show n + 1 + m = (n + m) + 1 by omega, run_succ_of_step hu]
    exact ih hn

/-- An invariant that every step keeps is kept by every sequence of steps. -/
theorem run_keeps {P : State → Prop} (hP : ∀ s t, P s → step s = .next t → P t) {n : Nat} {s t : State} (hs : P s)
    (h : Sys2Proof.core.run n s = .next t) : P t := by
  induction n generalizing s with
  | zero => cases h; exact hs
  | succ n ih =>
    obtain ⟨u, hu, hn⟩ := run_succ_next h
    exact ih (hP s u hs hu) hn

end Sys2Proof.Machine
end

