-- ==== Sys2Proof/Laws/Transactions.lean ====
section
/-! SUPPORT. What the host's transactions can do (R95, R99, R101, R113, R115 to R121), one inversion lemma each. -/

namespace Sys2Proof.Machine

/-- What a read gives after a program has been written (R117). -/
theorem Memory.read_writeProgram {m : Memory} (h : m.wf = true) {i : Nat} {p : List Instr}
    (hp : i + p.length ≤ m.size) (j : Nat) :
    (m.writeProgram i p).read j = if i ≤ j then (p[j - i]?).getD (m.read j) else m.read j := by
  induction p generalizing m i with
  | nil => simp [Memory.writeProgram]
  | cons c p ih =>
    rw [List.length_cons] at hp
    rw [Memory.writeProgram,
      ih (Memory.write_wf h (by omega) c) (by rw [Memory.write_size]; omega), Memory.read_write h]
    by_cases h1 : j = i
    · subst h1; simp
    · by_cases h2 : i ≤ j
      · rw [if_neg h1, if_pos (show i + 1 ≤ j by omega), if_pos h2,
          show j - i = (j - (i + 1)) + 1 by omega, List.getElem?_cons_succ]
      · rw [if_neg h1, if_neg (show ¬ i + 1 ≤ j by omega), if_neg h2]

/-- A program written changes no cell outside its place (R117). -/
theorem Memory.read_writeProgram_outside {m : Memory} (h : m.wf = true) {i : Nat} {p : List Instr}
    (hp : i + p.length ≤ m.size) {j : Nat} (hj : j < i ∨ i + p.length ≤ j) :
    (m.writeProgram i p).read j = m.read j := by
  rw [Memory.read_writeProgram h hp]
  split
  · rw [List.getElem?_eq_none (by omega), Option.getD_none]
  · rfl

/-- A placement passes exactly under the three conditions together (R115, R116). -/
theorem loadError_none_iff (s : State) (address : Int) (p : List Instr) : s.loadError address p = none ↔
    s.faulted = false ∧ s.started = false ∧
      WellFormed.placementLegal s.core.size s.maxCodeSize address p.length = true := by
  unfold State.loadError WellFormed.placementLegal
  cases s.faulted <;> cases s.started <;> simp
  constructor
  · intro h
    split at h
    · cases h
    · split at h
      · cases h
      · split at h
        · cases h
        · omega
  · rintro ⟨⟨h1, h2⟩, h3⟩
    rw [if_neg (by omega), if_neg (by omega), if_neg (by omega)]

/-- `Load` never answers with the elimination signal. -/
theorem loadError_ne_elimination (s : State) (address : Int) (p : List Instr) (k : Nat) :
    s.loadError address p ≠ some (.eliminationSignal k) := by
  unfold State.loadError
  repeat' split
  all_goals simp

/-- Everything `Load` can do (R89, R115, R117, R118). -/
theorem load_cases (s : State) (name : String) (address : Int) (p : List Instr) :
    (∃ e, s.loadError address p = some e ∧ s.load name address p = s.respond (.error e)) ∨
      (s.loadError address p = none ∧ s.load name address p = s.register name address.toNat p) := by
  unfold State.load
  cases h : s.loadError address p with
  | none => exact .inr ⟨rfl, rfl⟩
  | some e => exact .inl ⟨e, rfl, rfl⟩

/-- Everything the start of a Run can do (R95, R99, R101). -/
theorem startRun_cases (s : State) (n : Int) :
    (s.faulted = true ∧ s.startRun n = s.respond (.error .engineFaulted)) ∨
      (s.faulted = false ∧ n ≤ 0 ∧ s.startRun n = { s with started := true }.finishRun .noWinner) ∨
      (s.faulted = false ∧ 0 < n ∧ s.startRun n =
        { s with started := true, run := some { ticksLeft := n.toNat, k := 0 }, response := none }) := by
  unfold State.startRun
  cases h : s.faulted with
  | true => exact .inl ⟨rfl, by simp⟩
  | false =>
    by_cases hn : n ≤ 0
    · exact .inr (.inl ⟨rfl, hn, by simp [hn]⟩)
    · exact .inr (.inr ⟨rfl, by omega, by simp [hn]⟩)

theorem decodeResponse_ne_elimination (x : List Byte) (k : Nat) :
    decodeResponse x ≠ .error (.eliminationSignal k) := by
  unfold decodeResponse; split <;> simp

theorem decodeProgramResponse_ne_elimination (x : List Byte) (k : Nat) :
    decodeProgramResponse x ≠ .error (.eliminationSignal k) := by
  unfold decodeProgramResponse; split <;> simp

/-- Everything a transaction can do: `Load`, the start of a Run, or a response with nothing else changed. -/
theorem perform_cases (s : State) (q : Request) :
    (∃ name address p, q = .load name address p ∧ s.perform q = s.load name address p) ∨
      (∃ n, q = .run n ∧ s.perform q = s.startRun n) ∨
      (∃ r, s.perform q = s.respond r ∧ ∀ k, r ≠ .error (.eliminationSignal k)) := by
  cases q with
  | load name address p => exact .inl ⟨name, address, p, rfl, rfl⟩
  | run n => exact .inr (.inl ⟨n, rfl, rfl⟩)
  | encode i => exact .inr (.inr ⟨_, rfl, by simp⟩)
  | decode x => exact .inr (.inr ⟨_, rfl, decodeResponse_ne_elimination x⟩)
  | encodeProgram p => exact .inr (.inr ⟨_, rfl, by simp⟩)
  | decodeProgram x => exact .inr (.inr ⟨_, rfl, decodeProgramResponse_ne_elimination x⟩)
  | observe => exact .inr (.inr ⟨_, rfl, by simp⟩)

/-- Everything the step of an engine with no Run in progress can do (R112). -/
theorem serve_cases (s : State) :
    (s.requests = [] ∧ s.serve = s) ∨
      ∃ q rest, s.requests = q :: rest ∧ s.serve = { s with requests := rest }.perform q := by
  unfold State.serve
  cases h : s.requests with
  | nil => exact .inl ⟨rfl, rfl⟩
  | cons q rest => exact .inr ⟨q, rest, rfl, rfl⟩

end Sys2Proof.Machine
end

