-- ==== Sys2Proof/Tests/Slice0.lean ====
section
/-! SUPPORT. The model's own tests. Expected results are those of spec/95_test_vectors.md (its ids in the names or
comments) or are counted by hand from the rules. Then the witnesses: for each statement that has hypotheses, a concrete
state and operands that meet them. -/

namespace Sys2Proof.Tests

open Sys2Proof Sys2Proof.Machine

/-! ### Small states -/

/-- A core of ten cells, the size of the vectors. -/
def core10 (cells : List (Nat × Instr)) : Memory :=
  { size := 10, initAMode := .immediate, initBMode := .direct, cells := cells }

/-- A state with a Run in progress at warrior 0. -/
def running (cells : List (Nat × Instr)) (ws : List Warrior) (ticks : Nat := 2) (k : Nat := 0) : State :=
  { core := core10 cells, maxCodeSize := 100, warriors := ws, started := true, faulted := false,
    run := some { ticksLeft := ticks, k := k }, requests := [], response := none }

/-- A state with no Run in progress and these requests. -/
def idle (ws : List Warrior) (started faulted : Bool) (requests : List Request) : State :=
  { core := core10 [], maxCodeSize := 100, warriors := ws, started := started, faulted := faulted,
    run := none, requests := requests, response := none }

def live (name : String) (address : Nat) : Warrior := { name := name, address := address, alive := true }
def dead (name : String) (address : Nat) : Warrior := { name := name, address := address, alive := false }

/-- The instruction, as warrior 0 at `base` executes it beside a second living warrior: the cell `j` after it, and
the two warriors' addresses. -/
def cellAndPc (base : Nat) (i : Instr) (cells : List (Nat × Instr)) (j : Nat) : Option (Instr × List Nat) :=
  match exec i (running cells [live "A" base, live "B" 5]) with
  | .next t => some (t.core.read j, t.warriors.map (·.address))
  | _ => none

/-- The program counter of warrior 0 after the instruction. -/
def pcAfter (base : Nat) (i : Instr) (cells : List (Nat × Instr)) : Option Nat :=
  match exec i (running cells [live "A" base, live "B" 5]) with
  | .next t => (t.warriors.map (·.address)).head?
  | _ => none

/-! ### The checks of WellFormed refuse what is ill-formed -/

theorem test_config_refuses_zero : WellFormed.configValue 0 = false := by decide
theorem test_config_refuses_negative : WellFormed.configValue (-3) = false := by decide
theorem test_record_refuses_short :
    WellFormed.recordLegal [0x4D, 0x4F, 0x56, 0, 0, 0, 0, 0, 1, 0, 0, 0, 0x24] = false := by decide
theorem test_record_refuses_opcode :
    WellFormed.recordLegal [0x4E, 0x4F, 0x50, 0, 0, 0, 0, 0, 0, 0, 0, 0, 0x24, 0x24] = false := by decide
theorem test_record_refuses_padding :
    WellFormed.recordLegal [0x4D, 0x4F, 0x56, 1, 0, 0, 0, 0, 1, 0, 0, 0, 0x24, 0x24] = false := by decide
theorem test_record_refuses_amode :
    WellFormed.recordLegal [0x4D, 0x4F, 0x56, 0, 0, 0, 0, 0, 1, 0, 0, 0, 0x2A, 0x24] = false := by decide
theorem test_record_refuses_bmode :
    WellFormed.recordLegal [0x4D, 0x4F, 0x56, 0, 0, 0, 0, 0, 1, 0, 0, 0, 0x24, 0x00] = false := by decide
theorem test_placement_refuses_full_size : WellFormed.placementLegal 8000 100 0 100 = false := by decide
theorem test_placement_refuses_negative : WellFormed.placementLegal 10 100 (-1) 1 = false := by decide
theorem test_placement_refuses_last_cell : WellFormed.placementLegal 10 100 9 1 = false := by decide
theorem test_placement_takes_one_less :
    WellFormed.placementLegal 8000 100 0 99 = true ∧ WellFormed.placementLegal 10 100 8 1 = true := by decide
theorem test_core_refuses_falling_order :
    (core10 [(3, .jmp .direct 0 .direct 0), (1, .jmp .direct 0 .direct 0)]).wf = false := by decide
theorem test_core_refuses_outside : (core10 [(10, .jmp .direct 0 .direct 0)]).wf = false := by decide
theorem test_core_refuses_listed_blank : (core10 [(1, .dat .immediate 0 .direct 0)]).wf = false := by decide

/-! ### Records written out from R61 to R65 (vectors K1 to K7), one for every constructor -/

theorem test_decode_jmp_K1 : decode [0x4A, 0x4D, 0x50, 0x00, 0xFD, 0xFF, 0xFF, 0xFF, 0, 0, 0, 0, 0x24, 0x24]
    = .ok (.jmp .direct (-3) .direct 0) := by decide
theorem test_decode_mov_K2 : decode [0x4D, 0x4F, 0x56, 0x00, 0, 0, 0, 0, 1, 0, 0, 0, 0x24, 0x24]
    = .ok (.mov .direct 0 .direct 1) := by decide
theorem test_decode_dat_K3 : decode [0x44, 0x41, 0x54, 0x00, 0, 0, 0, 0, 0, 0, 0, 0, 0x23, 0x23]
    = .ok (.dat .immediate 0 .immediate 0) := by decide
theorem test_decode_add_K4 : decode [0x41, 0x44, 0x44, 0x00, 0, 0, 0, 0x80, 0xFF, 0xFF, 0xFF, 0x7F, 0x23, 0x40]
    = .ok (.add .immediate (-2147483648) .indirect 2147483647) := by decide
theorem test_decode_cmp_K5 : decode [0x43, 0x4D, 0x50, 0x00, 0xFF, 0xFF, 0xFF, 0xFF, 0, 1, 0, 0, 0x40, 0x24]
    = .ok (.cmp .indirect (-1) .direct 256) := by decide
theorem test_decode_slt_K6 : decode [0x53, 0x4C, 0x54, 0x00, 1, 0, 0, 0, 0xFF, 0xFF, 0xFF, 0xFF, 0x23, 0x23]
    = .ok (.slt .immediate 1 .immediate (-1)) := by decide
theorem test_encode_mov_K7 : encode (.mov .immediate 7 .direct 2)
    = [0x4D, 0x4F, 0x56, 0x00, 7, 0, 0, 0, 2, 0, 0, 0, 0x23, 0x24] := by decide
theorem test_encode_jmp_W8 : encode (.jmp .direct (-3) .direct 0)
    = [0x4A, 0x4D, 0x50, 0x00, 0xFD, 0xFF, 0xFF, 0xFF, 0, 0, 0, 0, 0x24, 0x24] := by decide
theorem test_assembly_K2_K3 : (Instr.mov .direct 0 .direct 1).assembly = "MOV $0, $1" ∧
    (Instr.dat .immediate 0 .immediate 0).assembly = "DAT #0, #0" := by decide

theorem test_decode_refuses_length_X1 :
    decode [0x4D, 0x4F, 0x56, 0, 0, 0, 0, 0, 1, 0, 0, 0, 0x24] = .error .badLength := by decide
theorem test_decode_refuses_lower_case_X3 :
    decode [0x6D, 0x6F, 0x76, 0, 0, 0, 0, 0, 1, 0, 0, 0, 0x24, 0x24] = .error .unknownOpcode := by decide
theorem test_decode_refuses_padding_X4 :
    decode [0x4D, 0x4F, 0x56, 1, 0, 0, 0, 0, 1, 0, 0, 0, 0x24, 0x24] = .error .nonzeroPadding := by decide
theorem test_decode_refuses_amode_X5 :
    decode [0x4D, 0x4F, 0x56, 0, 0, 0, 0, 0, 1, 0, 0, 0, 0x2A, 0x24] = .error .badAMode := by decide
theorem test_decode_refuses_bmode_X6 :
    decode [0x4D, 0x4F, 0x56, 0, 0, 0, 0, 0, 1, 0, 0, 0, 0x24, 0] = .error .badBMode := by decide
theorem test_decode_first_failure_X7 :
    decode [0x58, 0x59, 0x5A, 1, 0, 0, 0, 0, 0, 0, 0, 0, 0, 0] = .error .unknownOpcode := by decide

theorem test_table_word_mov : decodeTableWord 112 0x2424000000010000000000564F4D
    = some (.mov .direct 0 .direct 1) := by decide
theorem test_table_word_without_modes : decodeTableWord 32 0x00544144 = none := by decide

/-! ### Operands (RS vectors) -/

theorem test_resolve_wraps_RS1_RS3_RS4 :
    resolve (core10 []) 0 .direct (-1) = .cell 9 ∧ resolve (core10 []) 3 .direct (-2147483648) = .cell 5 ∧
    resolve (core10 []) 9 .direct 2147483647 = .cell 6 := by decide
theorem test_resolve_indirect_from_base_RS5_RS6 :
    resolve (core10 [(5, .dat .immediate 1 .immediate (-4))]) 2 .indirect 3 = .cell 8 ∧
    resolve (core10 [(5, .dat .immediate 1 .immediate 4)]) 2 .indirect 3 = .cell 6 := by decide

/-! ### Each instruction, one step -/

theorem test_mov_literal_M2 : cellAndPc 0 (.mov .immediate 7 .direct 2) [(2, .jmp .direct 3 .direct 4)] 2
    = some (.jmp .direct 3 .direct 7, [1, 5]) := by decide
theorem test_mov_cell_indirect_M5 : cellAndPc 3 (.mov .direct 1 .indirect 2)
    [(4, .add .immediate 1 .direct 1), (5, .dat .immediate 0 .immediate 3)] 6
    = some (.add .immediate 1 .direct 1, [4, 5]) := by decide
theorem test_add_wraps_AD2 : cellAndPc 0 (.add .immediate 1 .direct 1) [(1, .dat .immediate 0 .immediate 2147483647)] 1
    = some (.dat .immediate 0 .immediate (-2147483648), [1, 5]) := by decide
theorem test_add_reads_B_fields_AD4 : cellAndPc 0 (.add .direct 1 .direct 2)
    [(1, .jmp .direct 100 .direct 5), (2, .mov .immediate 9 .immediate (-2))] 2
    = some (.mov .immediate 9 .immediate 3, [1, 5]) := by decide
theorem test_jmp_wraps_J2 : pcAfter 2 (.jmp .direct (-3) .direct 0) [] = some 9 := by decide
theorem test_jmp_indirect_J6_literal_J5 :
    pcAfter 4 (.jmp .indirect 1 .direct 0) [(5, .dat .immediate 1 .immediate (-4))] = some 0 ∧
    pcAfter 4 (.jmp .immediate 3 .immediate 0) [] = some 7 := by decide
theorem test_cmp_compares_B_fields_CP4_CP5 :
    pcAfter 0 (.cmp .direct 1 .direct 2) [(1, .dat .immediate 1 .immediate 7), (2, .mov .direct 3 .indirect 7)] = some 2 ∧
    pcAfter 0 (.cmp .direct 1 .direct 2) [(1, .dat .immediate 7 .immediate 1), (2, .dat .immediate 7 .immediate 2)]
      = some 1 := by decide
theorem test_cmp_skip_wraps_CP6 : pcAfter 9 (.cmp .immediate 0 .immediate 0) [] = some 1 := by decide
theorem test_slt_is_signed_S1_S2 : pcAfter 0 (.slt .immediate (-1) .immediate 0) [] = some 2 ∧
    pcAfter 0 (.slt .immediate 0 .immediate (-1)) [] = some 1 := by decide
theorem test_slt_indirect_S9 : pcAfter 0 (.slt .indirect 1 .direct 2)
    [(1, .dat .immediate 0 .immediate 3), (2, .dat .immediate 0 .immediate (-8)), (3, .dat .immediate 0 .immediate (-9))]
      = some 2 := by decide

/-- What a test looks at after an elimination. -/
def afterDat (ws : List Warrior) (k : Nat) : Option (List Bool × Bool × Option RunPos × Option Response) :=
  match exec (.dat .direct 5 .indirect (-3)) (running [] ws 2 k) with
  | .next t => some (t.warriors.map (·.alive), t.faulted, t.run, t.response)
  | _ => none

/-- W6: the second of two warriors dies, so the first is the winner. -/
theorem test_dat_leaves_a_winner : afterDat [live "A" 0, live "B" 3] 1
    = some ([true, false], false, none, some (.winner 0)) := by decide
/-- SC1: the only warrior dies. -/
theorem test_dat_fatal_draw_SC1 : afterDat [live "A" 0] 0
    = some ([false], true, none, some (.error (.fatalDrawError 0))) := by decide

/-! ### Scheduler and transactions -/

theorem test_codes : (Signal.decodeError ⟨.badLength, none⟩).code = 1 ∧ (Signal.badConfig .coreSize).code = 7 := by
  decide
theorem test_eliminate_is_the_elimination_signal : Result.signal 3 .eliminate = some (.eliminationSignal 3) := by decide

/-- SC4: a Run of an empty table; the pass of an empty tick ends it. -/
theorem test_empty_table_SC4 :
    (match step (running [] [] 1 0) with | .next t => some (t.run, t.response) | _ => none)
      = some (none, some .noWinner) := by decide

/-- LD8: a second load over the first one's cells. -/
theorem test_load_overwrites_LD8 :
    (match step { idle [live "A" 0] false false [.load "B" 0 [.jmp .direct 2 .direct 0]] with
        core := core10 [(0, .mov .direct 0 .direct 1)] } with
      | .next t => some (t.core.read 0, t.warriors.length, t.response) | _ => none)
      = some (.jmp .direct 2 .direct 0, 2, some (.loaded 1)) := by decide

/-- SC8: a Run after a win; the survivor's copy is fetched by the next turn (R59). -/
theorem test_survivor_goes_on_SC8 :
    (match step (running [(1, .mov .direct 0 .direct 1)] [live "A" 1, dead "B" 5] 3 0) with
      | .next t => some (t.core.read 2, t.run) | _ => none)
      = some (.mov .direct 0 .direct 1, some ⟨3, 1⟩) := by decide

/-- The host's probe: the DAT K3, placed from reset, is fetched and leaves no one alive. -/
theorem test_placed_word_dat :
    (match step (State.reset.withFetchWord 112 0x2323000000000000000200544144) with
      | .next t => some (t.warriors.map (·.alive), t.faulted) | _ => none) = some ([false], true) := by decide

/-! ### Witnesses: states that meet the hypotheses of the statements -/

def duel : State :=
  running [(0, .mov .direct 0 .direct 1), (5, .jmp .direct 0 .direct 0)] [live "A" 0, live "B" 5]

def trio : State := running [] [live "A" 0, live "B" 5, live "C" 9]

theorem duel_hasTurn : HasTurn duel 0 (live "A" 0) := ⟨rfl, rfl, rfl, by decide⟩

theorem duel_core : duel.core.wf = true := by decide

theorem duel_inv : Inv duel where
  core := by decide
  maxCodeSize := by decide
  addresses := by decide
  notStarted := by intro h; cases h
  faulted := by decide
  running := by intro r h; cases h; decide
  noEscape := by intro k h; cases h

/-- ImmediateWriteChangesNoCell, MovCopiesToTheTarget, AddWritesTheSumIntoTheBField, JmpGoesToTheResolvedCell,
CmpSkipsWhenEqual, SltSkipsWhenLess, StepRunsTheFetchedInstruction (its record clause with K2). -/
theorem witness_turn : HasTurn duel 0 (live "A" 0) ∧ duel.core.wf = true ∧
    decode [0x4D, 0x4F, 0x56, 0x00, 0, 0, 0, 0, 1, 0, 0, 0, 0x24, 0x24] = .ok (.mov .direct 0 .direct 1) ∧
    duel.core.read (live "A" 0).address = .mov .direct 0 .direct 1 :=
  ⟨duel_hasTurn, duel_core, by decide, by decide⟩

/-- DatEliminatesTheExecutingWarrior: its three clauses. -/
theorem witness_DatEliminatesTheExecutingWarrior :
    (HasTurn trio 0 (live "A" 0) ∧ 3 ≤ trio.liveCount) ∧
    (HasTurn duel 0 (live "A" 0) ∧ duel.liveCount = 2) ∧
    (HasTurn (running [] [live "A" 0]) 0 (live "A" 0) ∧ (running [] [live "A" 0]).liveCount = 1) :=
  ⟨⟨⟨rfl, rfl, rfl, by decide⟩, by decide⟩, ⟨duel_hasTurn, by decide⟩, ⟨⟨rfl, rfl, rfl, by decide⟩, by decide⟩⟩

/-- ExecOutsideATurnFaults: no Run, and the first address outside the core. -/
theorem witness_ExecOutsideATurnFaults : (idle [] false false []).turn = none ∧
    (running [] [live "A" 10]).turn = some (0, live "A" 10) ∧ (running [] [live "A" 10]).core.size ≤ (live "A" 10).address :=
  ⟨rfl, rfl, by decide⟩

/-- InstructionTouchesOneCellAndItsOwnWarrior: an instruction that writes, one that does not, and DAT. -/
theorem witness_InstructionTouchesOneCellAndItsOwnWarrior : duel.core.wf = true ∧
    (∃ t, exec (.mov .direct 0 .direct 1) duel = .next t) ∧ (∃ t, exec (.jmp .direct 0 .direct 0) duel = .next t) ∧
    ∃ t, exec (.dat .direct 0 .direct 0) duel = .next t := ⟨duel_core, ⟨_, rfl⟩, ⟨_, rfl⟩, ⟨_, rfl⟩⟩

/-- DecodeReportsTheFirstFailingCheck: the hypotheses of each clause, in order. -/
theorem witness_DecodeReportsTheFirstFailingCheck :
    ([0x4D] : List Byte).length ≠ 14 ∧
    (∀ op : Opcode, ([0x4E, 0x4F, 0x50, 0, 0, 0, 0, 0, 0, 0, 0, 0, 0, 0] : List Byte).take 3 ≠ op.ascii) ∧
    ([0x4D, 0x4F, 0x56, 1, 0, 0, 0, 0, 1, 0, 0, 0, 0x24, 0x24] : List Byte)[3]? ≠ some 0x00 ∧
    (∀ m, ([0x4D, 0x4F, 0x56, 0, 0, 0, 0, 0, 1, 0, 0, 0, 0x2A, 0x24] : List Byte)[12]? ≠ some (modeByte m)) ∧
    (∀ m, ([0x4D, 0x4F, 0x56, 0, 0, 0, 0, 0, 1, 0, 0, 0, 0x24, 0x00] : List Byte)[13]? ≠ some (modeByte m)) ∧
    (([0x4D, 0x4F, 0x56, 0, 0, 0, 0, 0, 1, 0, 0, 0, 0x24, 0x40] : List Byte).take 3 = Opcode.mov.ascii ∧
      ([0x4D, 0x4F, 0x56, 0, 0, 0, 0, 0, 1, 0, 0, 0, 0x24, 0x40] : List Byte)[12]? = some (modeByte .direct) ∧
      ([0x4D, 0x4F, 0x56, 0, 0, 0, 0, 0, 1, 0, 0, 0, 0x24, 0x40] : List Byte)[13]? = some (modeByte .indirect)) := by
  refine ⟨by decide, ?_, by decide, ?_, ?_, by decide⟩
  · intro op; cases op <;> decide
  · intro m; cases m <;> decide
  · intro m; cases m <;> decide

/-- CodecRoundTripsExactly (its third clause) and AcceptedProgramBufferIsItsEncoding: X8. -/
theorem witness_AcceptedProgramBufferIsItsEncoding : decodeProgram
    ([0x4D, 0x4F, 0x56, 0x00, 0, 0, 0, 0, 1, 0, 0, 0, 0x24, 0x24] ++ [0x44, 0x41, 0x54, 0x00, 0, 0, 0, 0, 0, 0, 0, 0, 0x23, 0x23])
      = .ok [.mov .direct 0 .direct 1, .dat .immediate 0 .immediate 0] := by decide

/-- DecodeProgramReportsTheFirstFailingRecord: X9, X11 (its record 0 decodes, its record 1 fails), X10. -/
theorem witness_DecodeProgramReportsTheFirstFailingRecord :
    decodeProgram (List.replicate 15 0) = .error ⟨.badLength, none⟩ ∧
    decodeProgram ([0x4D, 0x4F, 0x56, 0x00, 0, 0, 0, 0, 1, 0, 0, 0, 0x24, 0x24] ++ [0x4E, 0x4F, 0x50, 0x00, 0, 0, 0, 0, 0, 0, 0, 0, 0, 0])
      = .error ⟨.unknownOpcode, some 1⟩ ∧
    decodeProgram [] = .ok [] := by decide

/-- NormIsTheEuclideanRemainder at both ends of the core, and in a core of one cell (RS9). -/
theorem witness_NormIsTheEuclideanRemainder : (core10 []).norm (-1) = 9 ∧ (core10 []).norm 10 = 0 ∧
    ({ core10 [] with size := 1 } : Memory).norm 7 = 0 := by decide

/-- OperandsResolveInsideTheCore: the last cell as base. -/
theorem witness_OperandsResolveInsideTheCore : 9 < (core10 []).size := by decide

/-- PositionMovesOnRoundRobin: its four clauses. -/
theorem witness_PositionMovesOnRoundRobin :
    (idle [] false false []).run = none ∧
    (duel.run = some ⟨2, 0⟩ ∧ 0 + 1 < duel.warriors.length) ∧
    ((running [] [live "A" 0, live "B" 5] 2 1).run = some ⟨2, 1⟩ ∧
      (running [] [live "A" 0, live "B" 5] 2 1).warriors.length ≤ 1 + 1) ∧
    ((running [] [live "A" 0, live "B" 5] 1 1).run = some ⟨1, 1⟩ ∧
      (running [] [live "A" 0, live "B" 5] 1 1).warriors.length ≤ 1 + 1) := by decide

/-- DeadWarriorTakesNoTurn. -/
theorem witness_DeadWarriorTakesNoTurn : (running [] [dead "A" 0, live "B" 5]).run = some ⟨2, 0⟩ ∧
    (running [] [dead "A" 0, live "B" 5]).warriors[0]? = some (dead "A" 0) ∧ (dead "A" 0).alive = false := by decide

/-- IdleEngineKeepsItsState. -/
theorem witness_IdleEngineKeepsItsState : State.reset.run = none ∧ State.reset.requests = [] := ⟨rfl, rfl⟩

/-- RunIsNotInterrupted, NamesAreNeverRead, ResponseIsNeverRead; and the steps of the statements about every step. -/
theorem witness_step : duel.run ≠ none ∧ ∃ t, step duel = .next t := ⟨by decide, _, rfl⟩

/-- RunEndsInThreeWays: each of the three. -/
theorem witness_RunEndsInThreeWays :
    (∃ t, step (running [] [live "A" 0, live "B" 5]) = .next t ∧ t.run = none ∧ t.response = some (.winner 1)) ∧
    (∃ t, step (running [] [live "A" 0]) = .next t ∧ t.run = none ∧
      t.response = some (.error (.fatalDrawError 0))) ∧
    (∃ t, step (running [(0, .jmp .direct 0 .direct 0)] [live "A" 0] 1) = .next t ∧ t.run = none ∧
      t.response = some .noWinner) := ⟨⟨_, rfl, rfl, rfl⟩, ⟨_, rfl, rfl, rfl⟩, ⟨_, rfl, rfl, rfl⟩⟩

/-- DeathOnlyByExecutingDat: a warrior that dies, one that was dead, and one that is registered. -/
theorem witness_DeathOnlyByExecutingDat :
    (∃ t, step trio = .next t ∧ (t.warriors.map (·.alive)) = [false, true, true]) ∧
    (∃ t, step (running [] [dead "A" 0, live "B" 5]) = .next t ∧ t.warriors[0]? = some (dead "A" 0)) ∧
    (∃ t, step (idle [] false false [.load "A" 9 []]) = .next t ∧ t.warriors[0]? = some (live "A" 9)) :=
  ⟨⟨_, rfl, rfl⟩, ⟨_, rfl, rfl⟩, ⟨_, rfl, rfl⟩⟩

/-- ProgramCounterChangesOnlyInOwnTurn. -/
theorem witness_ProgramCounterChangesOnlyInOwnTurn : ∃ t, step duel = .next t ∧
    duel.warriors[0]? = some (live "A" 0) ∧ t.warriors[0]? = some (live "A" 1) ∧
    (live "A" 1).address ≠ (live "A" 0).address := ⟨_, rfl, rfl, rfl, by decide⟩

/-- CoreIsWrittenOnlyByLoadMovAdd: a turn and a load that change the core. -/
theorem witness_CoreIsWrittenOnlyByLoadMovAdd :
    (∃ t, step duel = .next t ∧ t.core ≠ duel.core) ∧
    (∃ t, step (idle [] false false [.load "A" 0 [.jmp .direct 0 .direct 0]]) = .next t ∧
      t.core ≠ (idle [] false false []).core) := ⟨⟨_, rfl, by decide⟩, ⟨_, rfl, by decide⟩⟩

/-- StatusBitsAreSticky: the step that sets `STARTED` and the one that sets `FAULTED`. -/
theorem witness_StatusBitsAreSticky :
    (∃ t, step (idle [] false false [.run 0]) = .next t ∧ t.started = true) ∧
    (∃ t, step (running [] [live "A" 0]) = .next t ∧ t.faulted = true) := ⟨⟨_, rfl, rfl⟩, ⟨_, rfl, rfl⟩⟩

/-- ConstructGivesTheResetState: the boundary values of its clauses. -/
theorem witness_ConstructGivesTheResetState : (0 : Int) < 1 ∧ (1 : Int) ≤ 1 ∧
    State.construct .direct .direct 0 100 = .error (.badConfig .coreSize) ∧
    State.construct .direct .direct 10 0 = .error (.badConfig .maxCodeSize) := by decide

/-- LoadChecksInOrder: each clause's hypotheses at its boundary (LD9, LD1, LD3, LD4). -/
theorem witness_LoadChecksInOrder :
    (idle [dead "A" 0] true true [.load "B" 3 []]).faulted = true ∧
    ((idle [] true false [.load "C" 2 []]).faulted = false ∧ (idle [] true false [.load "C" 2 []]).started = true) ∧
    ((idle [] false false []).maxCodeSize ≤ (List.replicate 100 (Instr.dat .direct 0 .direct 0)).length) ∧
    ((List.replicate 99 (Instr.dat .direct 0 .direct 0)).length < (idle [] false false []).maxCodeSize ∧ (-1 : Int) < 0) ∧
    ((0 : Int) ≤ 9 ∧ ((idle [] false false []).core.size : Int) ≤ 9 + ([Instr.dat .direct 0 .direct 0].length : Int)) := by
  decide

/-- LoadPlacesAndRegisters: LD5, the last place that one instruction can take, and LD6, the empty program. -/
theorem witness_LoadPlacesAndRegisters :
    (idle [] false false [.load "A" 8 [.dat .direct 1 .direct 1]]).core.wf = true ∧
    8 + [Instr.dat .direct 1 .direct 1].length < (core10 []).size ∧ 9 + ([] : List Instr).length < (core10 []).size := by
  decide

/-- RunStartsAtTheFirstWarrior: both clauses, at 0 and at 1. -/
theorem witness_RunStartsAtTheFirstWarrior :
    ((idle [] false false [.run 0]).requests = .run 0 :: [] ∧ (0 : Int) ≤ 0) ∧
    ((idle [] false false [.run 1]).requests = .run 1 :: [] ∧ (1 : Int) ≤ 1) := by decide

/-- FaultedEngineRefusesLoadAndRun: a faulted block with no Run in progress, and a request of each kind. -/
theorem witness_FaultedEngineRefusesLoadAndRun (q : Request) :
    (idle [dead "A" 0] true true [q]).run = none ∧ (idle [dead "A" 0] true true [q]).requests = q :: [] ∧
    (idle [dead "A" 0] true true [q]).faulted = true := ⟨rfl, rfl, rfl⟩

/-- The well-formed states of the statements about `Inv`: one with a Run in progress, and a reset one with a Run
requested. -/
theorem witness_inv : Inv duel ∧ Inv (idle [] false false [.run 3]) ∧
    (idle [] false false [.run 3]).run = none ∧ (idle [] false false [.run 3]).requests = .run 3 :: [] := by
  refine ⟨duel_inv, ⟨by decide, by decide, by decide, by decide, by decide, ?_, ?_⟩, rfl, rfl⟩
  · intro r h; cases h
  · intro k h; cases h

/-- InvariantHoldsAtReset: a Construct that succeeds with the smallest parameters. -/
theorem witness_InvariantHoldsAtReset : ∃ s, State.construct .direct .indirect 1 1 = .ok s := ⟨_, rfl⟩

/-- EveryStepKeepsTheInvariant, RunReturnsWithinItsBudget. -/
theorem witness_EveryStepKeepsTheInvariant : Inv duel ∧ duel.run = some ⟨2, 0⟩ ∧ ∃ t, step duel = .next t :=
  ⟨duel_inv, rfl, _, rfl⟩

/-- DatModesAreNeverInterpreted: two states that differ in the reset modes, one of them with a Run in progress. -/
theorem witness_DatModesAreNeverInterpreted :
    EquivDatModes trio { trio with core := { core10 [] with initAMode := .indirect, initBMode := .indirect } } ∧
    trio.core.wf = true ∧ ({ core10 [] with initAMode := .indirect, initBMode := .indirect } : Memory).wf = true ∧
    trio.run ≠ none ∧ ∃ t, step trio = .next t :=
  ⟨⟨rfl, fun _ => .inr ⟨rfl, rfl, rfl, rfl⟩, rfl⟩, by decide, by decide, by decide, _, rfl⟩

/-- NamesAreNeverRead: its clause about a stop, in a state that is not well-formed. -/
theorem witness_NamesAreNeverRead : step (running [] [live "A" 10]) = .fault (.noSuchCell 10) := rfl

/-- CodecAnswersOnEveryEngine: a request of each kind, the decoder's with a record that decodes and with one that does
not (K2, X1). -/
theorem witness_CodecAnswersOnEveryEngine (q : Request) :
    (idle [] false false [q]).run = none ∧ (idle [] false false [q]).requests = q :: [] ∧
    decode [0x4D, 0x4F, 0x56, 0x00, 0, 0, 0, 0, 1, 0, 0, 0, 0x24, 0x24] = .ok (.mov .direct 0 .direct 1) ∧
    decode [0x4D] = .error .badLength ∧ decodeProgram [] = .ok [] ∧
    decodeProgram [0x4D] = .error ⟨.badLength, none⟩ := ⟨rfl, rfl, by decide, by decide, by decide, by decide⟩

/-- ObserveShowsTheState: an engine that has not faulted; its three values of the status. -/
theorem witness_ObserveShowsTheState :
    ((idle [live "A" 0] true false [.observe]).run = none ∧
      (idle [live "A" 0] true false [.observe]).requests = .observe :: []) ∧
    (idle [live "A" 0] true false [.observe]).observe.status = .won ∧
    (idle [] false false [.observe]).observe.status = .running ∧
    (idle [dead "A" 0] true true [.observe]).observe.status = .fatal := ⟨⟨rfl, rfl⟩, rfl, rfl, rfl⟩

/-- PlacedWordIsRunFromReset: K2. -/
theorem witness_PlacedWordIsRunFromReset :
    decodeTableWord 112 0x2424000000010000000000564F4D = some (.mov .direct 0 .direct 1) := by decide

end Sys2Proof.Tests
end

section
/-! PROOFS. What a step is in each of its cases (R93, R96, R103, R112), and what the codec's responses are. -/

namespace Sys2Proof.Machine

variable {s : State}

theorem step_idle (hr : s.run = none) : step s = .next s.serve := by
  simp [step, State.slot, hr]

/-- The step of an idle engine performs the oldest transaction (log entry 25). -/
theorem step_request {q : Request} {rest : List Request} (hr : s.run = none) (hq : s.requests = q :: rest) :
    step s = .next ({ s with requests := rest }.perform q) := by
  rw [step_idle hr, State.serve, hq]

theorem step_skip {r : RunPos} (hr : s.run = some r) (ht : s.turn = none) : step s = .next s.advance := by
  simp [step, State.slot, hr, ht]

theorem HasTurn.step {k : Nat} {w : Warrior} (h : HasTurn s k w) :
    step s = advanceOutcome (exec (s.core.read w.address) s) := by
  rw [Machine.step, h.slot]

theorem HasTurn.exec {k : Nat} {w : Warrior} (h : HasTurn s k w) (i : Instr) : exec i s =
    .next ({ s with core := (execute i s.core w.address).1 }.applyResult k w (execute i s.core w.address).2) := by
  rw [exec_eq_takeTurn, h.takeTurn]

variable {x : List Byte}

theorem decodeResponse_of_ok {i : Instr} (h : decode x = .ok i) : decodeResponse x = .decoded i := by
  rw [decodeResponse, h]

theorem decodeResponse_of_error {e : DecodeReason} (h : decode x = .error e) :
    decodeResponse x = .error (.decodeError ⟨e, none⟩) := by
  rw [decodeResponse, h]

theorem decodeProgramResponse_of_ok {p : List Instr} (h : decodeProgram x = .ok p) :
    decodeProgramResponse x = .decodedProgram p := by
  rw [decodeProgramResponse, h]

theorem decodeProgramResponse_of_error {e : DecodeError} (h : decodeProgram x = .error e) :
    decodeProgramResponse x = .error (.decodeError e) := by
  rw [decodeProgramResponse, h]

end Sys2Proof.Machine
end

section
/-! PROOFS. Replacing the core: everything but an instruction's own reads and writes commutes with it, as long as the
size stays. -/

namespace Sys2Proof.Machine

/-- The state with another core. -/
def State.withCore (s : State) (m : Memory) : State := { s with core := m }

variable (s : State) {m : Memory}

@[simp] theorem State.withCore_core (m : Memory) : (s.withCore m).core = m := rfl
@[simp] theorem State.withCore_run (m : Memory) : (s.withCore m).run = s.run := rfl
@[simp] theorem State.withCore_requests (m : Memory) : (s.withCore m).requests = s.requests := rfl

theorem withCore_ite (p : Prop) [Decidable p] (s t : State) (m : Memory) :
    (if p then s else t).withCore m = if p then s.withCore m else t.withCore m :=
  apply_ite (State.withCore · m) p s t

theorem HasTurn.withCore {s : State} {k : Nat} {w : Warrior} (h : HasTurn s k w) (hm : m.size = s.core.size) :
    HasTurn (s.withCore m) k w :=
  ⟨h.position, h.record, h.alive, hm ▸ h.inCore⟩

theorem advance_core : s.advance.core = s.core := by rw [advance_frame]

/-- The scheduler does not look at the core (R103). -/
theorem advance_withCore (m : Memory) : (s.withCore m).advance = s.advance.withCore m := by
  cases hr : s.run with
  | none => simp only [State.advance, State.withCore_run, hr]
  | some r =>
    simp only [State.advance, State.withCore_run, hr, withCore_ite]
    rfl

/-- The termination check does not look at the core (R95). -/
theorem checkTermination_withCore (k : Nat) (m : Memory) :
    (s.withCore m).checkTermination k = (s.checkTermination k).withCore m := by
  simp only [State.checkTermination, withCore_ite]
  rfl

theorem applyResult_core (k : Nat) (w : Warrior) (r : Result) : (s.applyResult k w r).core = s.core := by
  cases r with
  | next => rfl
  | skip => rfl
  | jump t => rfl
  | eliminate => exact (eliminate_frame s k w).1

theorem Memory.norm_congr {m m' : Memory} (h : m.size = m'.size) (x : Int) : m.norm x = m'.norm x := by
  rw [Memory.norm, Memory.norm, h]

/-- Of the core, the update by a result takes the size alone (R94). -/
theorem applyResult_withCore (hm : m.size = s.core.size) (k : Nat) (w : Warrior) (r : Result) :
    (s.withCore m).applyResult k w r = (s.applyResult k w r).withCore m := by
  cases r with
  | next => rw [State.applyResult, State.withCore_core, Memory.norm_congr hm]; rfl
  | skip => rw [State.applyResult, State.withCore_core, Memory.norm_congr hm]; rfl
  | jump t => rfl
  | eliminate => exact checkTermination_withCore (s.setWarrior k { w with alive := false }) k m

/-- Of the core, the checks of `Load` take the size alone (R115, R116). -/
theorem loadError_withCore (hm : m.size = s.core.size) (address : Int) (p : List Instr) :
    (s.withCore m).loadError address p = s.loadError address p := by
  rw [State.loadError, State.withCore_core, hm]
  rfl

theorem startRun_core (n : Int) : (s.startRun n).core = s.core := by
  rcases startRun_cases s n with ⟨-, h⟩ | ⟨-, -, h⟩ | ⟨-, -, h⟩ <;> rw [h] <;> rfl

/-- The start of a Run does not look at the core (R95). -/
theorem startRun_withCore (n : Int) (m : Memory) : (s.withCore m).startRun n = (s.startRun n).withCore m := by
  simp only [State.startRun, withCore_ite]
  rfl

end Sys2Proof.Machine
end

section
/-! PROOFS. The modes of DAT cells (R87): cores that differ in them alone stay so under every operation, and give the
same resolved operands, values and results. -/

namespace Sys2Proof.Machine

namespace SameButDatModes

variable {c c' : Instr}

theorem refl (c : Instr) : SameButDatModes c c := .inl rfl

theorem b_eq (h : SameButDatModes c c') : c.b = c'.b := by
  rcases h with rfl | ⟨-, -, -, hb⟩
  · rfl
  · exact hb

theorem withB (h : SameButDatModes c c') (v : Word) : SameButDatModes (c.withB v) (c'.withB v) := by
  rcases h with rfl | ⟨ho, ho', ha, -⟩
  · exact refl _
  · obtain ⟨hop, -, hfa, -, hfb⟩ := withB_fields c v
    obtain ⟨hop', -, hfa', -, hfb'⟩ := withB_fields c' v
    exact .inr ⟨hop.trans ho, hop'.trans ho', by rw [hfa, hfa', ha], by rw [hfb, hfb']⟩

end SameButDatModes

/-- The two cores have the same cells but for the modes of DAT cells (R87). -/
def SameCells (m m' : Memory) : Prop := m.size = m'.size ∧ ∀ j, SameButDatModes (m.read j) (m'.read j)

theorem equivDatModes_iff {s s' : State} :
    EquivDatModes s s' ↔ SameCells s.core s'.core ∧ s' = s.withCore s'.core := and_assoc.symm

theorem equivDatModes_withCore {s : State} {m : Memory} (h : SameCells s.core m) : EquivDatModes s (s.withCore m) :=
  equivDatModes_iff.2 ⟨h, rfl⟩

namespace SameCells

variable {m m' : Memory}

theorem readB (h : SameCells m m') (i : Nat) : m.readB i = m'.readB i := (h.2 i).b_eq

theorem view (h : SameCells m m') (base : Nat) (off : Int) : m.view base off = m'.view base off :=
  Memory.norm_congr h.1 _

theorem resolve (h : SameCells m m') (base : Nat) (mode : Mode) (v : Word) :
    resolve m base mode v = resolve m' base mode v := by
  cases mode with
  | immediate => rfl
  | direct => simp only [Machine.resolve, h.view]
  | indirect => simp only [Machine.resolve, h.view, h.readB]

theorem valueRead (h : SameCells m m') (r : Operand) : valueRead m r = valueRead m' r := by
  cases r with
  | imm v => rfl
  | cell i => exact h.readB i

theorem jumpTarget (h : SameCells m m') (base : Nat) (ma : Mode) (a : Word) :
    jumpTarget m base ma a = jumpTarget m' base ma a := by
  simp only [Machine.jumpTarget, h.resolve, h.view]

variable (h : SameCells m m') (hw : m.wf = true) (hw' : m'.wf = true)
include h hw hw'

theorem write (i : Nat) {c c' : Instr} (hc : SameButDatModes c c') : SameCells (m.write i c) (m'.write i c') := by
  refine ⟨h.1, fun j => ?_⟩
  rw [Memory.read_write hw, Memory.read_write hw']
  split
  · exact hc
  · exact h.2 j

theorem writeCell (r : Operand) {c c' : Instr} (hc : SameButDatModes c c') :
    SameCells (writeCell m r c) (writeCell m' r c') := by
  cases r with
  | imm v => exact h
  | cell i => exact h.write hw hw' i hc

theorem writeB (r : Operand) (x : Word) : SameCells (writeB m r x) (writeB m' r x) := by
  cases r with
  | imm v => exact h
  | cell i => exact h.write hw hw' i ((h.2 i).withB x)

theorem writeProgram {i : Nat} {p : List Instr} (hp : i + p.length ≤ m.size) :
    SameCells (m.writeProgram i p) (m'.writeProgram i p) := by
  refine ⟨by simpa only [Memory.writeProgram_size] using h.1, fun j => ?_⟩
  rw [Memory.read_writeProgram hw hp, Memory.read_writeProgram hw' (h.1 ▸ hp)]
  split
  · cases p[j - i]? with
    | none => exact h.2 j
    | some c => exact .refl c
  · exact h.2 j

theorem movEffect (ma : Mode) (a : Word) (mb : Mode) (b : Word) (base : Nat) :
    SameCells (movEffect ma a mb b m base).1 (movEffect ma a mb b m' base).1 := by
  simp only [Machine.movEffect, h.resolve]
  cases Machine.resolve m' base ma a with
  | imm v => exact h.writeB hw hw' _ v
  | cell i => exact h.writeCell hw hw' _ (h.2 i)

theorem addEffect (ma : Mode) (a : Word) (mb : Mode) (b : Word) (base : Nat) :
    SameCells (addEffect ma a mb b m base).1 (addEffect ma a mb b m' base).1 := by
  simp only [Machine.addEffect, h.resolve, h.valueRead]
  exact h.writeB hw hw' _ _

/-- One instruction on two cores that differ in the modes of DAT cells alone: the cores it leaves do too, and its
result is the same (R87). -/
theorem execute (i : Instr) (base : Nat) : SameCells (execute i m base).1 (execute i m' base).1 ∧
    (Machine.execute i m base).2 = (Machine.execute i m' base).2 := by
  cases i with
  | mov ma a mb b =>
    exact ⟨h.movEffect hw hw' ma a mb b base,
      (movEffect_spec (Memory.size_pos hw) ma a mb b base).2.trans
        (movEffect_spec (Memory.size_pos hw') ma a mb b base).2.symm⟩
  | add ma a mb b => exact ⟨h.addEffect hw hw' ma a mb b base, rfl⟩
  | jmp ma a mb b => exact ⟨h, congrArg Result.jump (h.jumpTarget base ma a)⟩
  | cmp ma a mb b => exact ⟨h, by simp only [Machine.execute, cmpEffect, h.resolve, h.valueRead]⟩
  | slt ma a mb b => exact ⟨h, by simp only [Machine.execute, sltEffect, h.resolve, h.valueRead]⟩
  | dat ma a mb b => exact ⟨h, rfl⟩

end SameCells

/-- DAT reads neither its operands nor their modes (R86), so cells that differ in the modes of a DAT execute alike. -/
theorem execute_congr {i i' : Instr} (h : SameButDatModes i i') : execute i = execute i' := by
  rcases h with rfl | ⟨ho, ho', -⟩
  · rfl
  · cases i <;> cases ho
    cases i' <;> cases ho'
    rfl

section Step

variable {s : State} {m : Memory}

/-- A turn and the scheduler's move after it, on two cores that differ in the modes of DAT cells alone. -/
theorem turn_equivDatModes {c c' : Memory} (hc : SameCells c c') (k : Nat) (w : Warrior) (r : Result) :
    EquivDatModes ((s.withCore c).applyResult k w r).advance ((s.withCore c').applyResult k w r).advance := by
  have hcore : ((s.withCore c).applyResult k w r).advance.core = c := by
    rw [advance_core, applyResult_core, State.withCore_core]
  have hcomm : ((s.withCore c').applyResult k w r).advance =
      ((s.withCore c).applyResult k w r).advance.withCore c' := by
    rw [← advance_withCore, ← applyResult_withCore (s.withCore c) hc.1.symm]
    rfl
  rw [hcomm]
  exact equivDatModes_withCore (by rwa [hcore])

theorem load_equivDatModes (hw : s.core.wf = true) (hm : m.wf = true) (h : SameCells s.core m) (name : String)
    (address : Int) (p : List Instr) :
    EquivDatModes (s.load name address p) ((s.withCore m).load name address p) := by
  have he := loadError_withCore s h.1.symm address p
  rcases load_cases s name address p with ⟨e, hl, ht⟩ | ⟨hl, ht⟩
  · rw [ht, State.load, he, hl]
    exact equivDatModes_withCore h
  · obtain ⟨-, -, hp⟩ := (loadError_none_iff s address p).1 hl
    simp only [WellFormed.placementLegal, Bool.and_eq_true, decide_eq_true_eq] at hp
    rw [ht, State.load, he, hl]
    exact equivDatModes_withCore (h.writeProgram hw hm (by omega))

/-- Every transaction but `Observe`, on two cores that differ in the modes of DAT cells alone. -/
theorem perform_equivDatModes (hw : s.core.wf = true) (hm : m.wf = true) (h : SameCells s.core m) {q : Request}
    (hq : q ≠ .observe) : EquivDatModes (s.perform q) ((s.withCore m).perform q) := by
  cases q with
  | load name address p => exact load_equivDatModes hw hm h name address p
  | run n =>
    rw [State.perform, State.perform, startRun_withCore]
    exact equivDatModes_withCore (startRun_core s n ▸ h)
  | encode i => exact equivDatModes_withCore h
  | decode x => exact equivDatModes_withCore h
  | encodeProgram p => exact equivDatModes_withCore h
  | decodeProgram x => exact equivDatModes_withCore h
  | observe => exact absurd rfl hq

end Step

/-- Settles O45: a simulation, one commuting lemma for each of the three things a step can do. -/
theorem datModesAreNeverInterpreted : Obligations.DatModesAreNeverInterpreted := by
  intro s s' t hw hw' heq hobs ht
  obtain ⟨hc, hs'⟩ := equivDatModes_iff.1 heq
  generalize s'.core = m at hw' hc hs'
  subst hs'
  rcases step_next_cases ht with ⟨hr, rfl⟩ | ⟨r, hr, hturn, rfl⟩ | ⟨k, w, u, hk, hu, rfl⟩
  case inl =>
    refine ⟨_, step_idle (s := s.withCore m) hr, ?_⟩
    rcases serve_cases s with ⟨hq, h⟩ | ⟨q, rest, hq, h⟩
    · rw [h, State.serve, State.withCore_requests, hq]
      exact equivDatModes_withCore hc
    · have hne : q ≠ .observe := fun e => hobs hr rest (e ▸ hq)
      rw [h, State.serve, State.withCore_requests, hq]
      exact perform_equivDatModes (s := { s with requests := rest }) hw hw' hc hne
  case inr.inl =>
    refine ⟨_, step_skip (s := s.withCore m) hr hturn, ?_⟩
    rw [advance_withCore]
    exact equivDatModes_withCore ((advance_core s).symm ▸ hc)
  case inr.inr =>
    have hk' : HasTurn (s.withCore m) k w := hk.withCore hc.1.symm
    obtain ⟨hcells, hres⟩ := hc.execute hw hw' (s.core.read w.address) w.address
    rw [hk.exec] at hu
    cases hu
    refine ⟨_, by rw [hk'.step, hk'.exec]; rfl, ?_⟩
    rw [State.withCore_core, ← execute_congr (hc.2 w.address), ← hres]
    exact turn_equivDatModes hcells k w _

end Sys2Proof.Machine
end

section
/-! PROOFS. Index arithmetic and the ALU (R14, R15, R78), the reset state (R113), and the transactions that answer on
every engine (R6, R101). -/

namespace Sys2Proof.Machine

/-- Two indices of a core that are congruent to the same integer are the same. -/
theorem index_unique {n r r' : Nat} {x : Int} (hr : r < n) (hr' : r' < n) (h : (n : Int) ∣ x - r)
    (h' : (n : Int) ∣ x - r') : r = r' := by
  have hd : (n : Int) ∣ (r' : Int) - r := by simpa using dvd_sub h h'
  have h0 : (r' : Int) - r = 0 := Int.eq_zero_of_abs_lt_dvd hd (by rw [abs_lt]; omega)
  omega

/-- Settles O8: `norm` is such an index (Laws/Memory), and there is only one. -/
theorem normIsTheEuclideanRemainder : Obligations.NormIsTheEuclideanRemainder := by
  intro m x r hm
  constructor
  · rintro rfl
    exact ⟨Memory.norm_lt hm x, Memory.norm_dvd_sub hm x⟩
  · rintro ⟨hr, hd⟩
    exact index_unique (Memory.norm_lt hm x) hr (Memory.norm_dvd_sub hm x) hd

/-- `wrap32` as a formula on integers (R14). -/
theorem toInt_wrap32 (x : Int) : (wrap32 x).toInt = (x + 2 ^ 31) % 2 ^ 32 - 2 ^ 31 := by
  rw [wrap32, BitVec.toInt_ofInt, Int.bmod_def]
  split <;> omega

/-- Settles O10. -/
theorem addWrapsAtThirtyTwoBits : Obligations.AddWrapsAtThirtyTwoBits :=
  fun x y => toInt_wrap32 (x.toInt + y.toInt)

/-- A Construct whose parameters are both at least 1 succeeds (R113). -/
theorem construct_of_legal (ia ib : Mode) {n c : Int} (hn : 1 ≤ n) (hc : 1 ≤ c) :
    State.construct ia ib n c = .ok (State.initial ia ib n.toNat c.toNat) := by
  simp [State.construct, WellFormed.configValue, hn, hc]

/-- Settles O33: the defaults are legal. -/
theorem resetIsTheDefaultConstruct : Obligations.ResetIsTheDefaultConstruct :=
  construct_of_legal Config.initAMode Config.initBMode (by decide) (by decide)

/-- Settles O49: each of the codec's transactions is a response. -/
theorem codecAnswersOnEveryEngine : Obligations.CodecAnswersOnEveryEngine := by
  intro s rest hr
  refine ⟨fun i hq => step_request hr hq, fun p hq => step_request hr hq, fun x hq => ⟨?_, ?_⟩,
    fun x hq => ⟨?_, ?_⟩⟩ <;> intro r hx <;> rw [step_request hr hq, State.perform]
  · rw [decodeResponse_of_ok hx, State.respond]
  · rw [decodeResponse_of_error hx, State.respond]
  · rw [decodeProgramResponse_of_ok hx, State.respond]
  · rw [decodeProgramResponse_of_error hx, State.respond]

/-- Every cell of the core is shown at its index (R6). -/
theorem observe_core (s : State) {i : Nat} (hi : i < s.core.size) : s.observe.core[i]? = some (s.core.read i) := by
  simp [State.observe, hi]

/-- The match status, its three values told apart (R31). -/
theorem matchStatus_iff (s : State) :
    (s.matchStatus = .fatal ↔ s.faulted = true) ∧
    (s.matchStatus = .won ↔ s.faulted = false ∧ s.liveCount = 1) ∧
    (s.matchStatus = .running ↔ s.faulted = false ∧ s.liveCount ≠ 1) := by
  unfold State.matchStatus
  cases hf : s.faulted with
  | true => simp
  | false => by_cases hl : s.liveCount = 1 <;> simp [hl]

theorem liveCount_eq_length_filter (s : State) : s.liveCount = (s.warriors.filter (·.alive)).length :=
  List.countP_eq_length_filter

/-- Settles O50: the observation is that of the state served. -/
theorem observeShowsTheState : Obligations.ObserveShowsTheState := by
  intro s rest hr hq
  have hlen : s.observe.core.length = s.core.size := by simp [State.observe]
  refine ⟨s.observe, step_request hr hq, hlen, fun i hi => observe_core s hi, rfl, rfl, rfl, rfl, ?_⟩
  rw [← liveCount_eq_length_filter]
  exact matchStatus_iff s

end Sys2Proof.Machine
end

section
/-! PROOFS. What a step can change (R103, R112): the scheduler's move, elimination and the host's transactions field
by field, then the seven effects of a step as one inductive relation with its inversion lemma. -/

namespace Sys2Proof.Machine

/-! ### Another core, the scheduler's move and elimination, field by field -/

section Fields

variable (s : State) (m : Memory) (k : Nat) (w : Warrior)

@[simp] theorem State.withCore_maxCodeSize : (s.withCore m).maxCodeSize = s.maxCodeSize := rfl
@[simp] theorem State.withCore_warriors : (s.withCore m).warriors = s.warriors := rfl
@[simp] theorem State.withCore_started : (s.withCore m).started = s.started := rfl
@[simp] theorem State.withCore_faulted : (s.withCore m).faulted = s.faulted := rfl

@[simp] theorem advance_maxCodeSize : s.advance.maxCodeSize = s.maxCodeSize := by rw [advance_frame]
@[simp] theorem advance_warriors : s.advance.warriors = s.warriors := by rw [advance_frame]
@[simp] theorem advance_started : s.advance.started = s.started := by rw [advance_frame]
@[simp] theorem advance_faulted : s.advance.faulted = s.faulted := by rw [advance_frame]

theorem advance_of_run_none {s : State} (h : s.run = none) : s.advance = s := by
  rw [State.advance, h]

section

variable {s : State} {r : RunPos}

theorem advance_of_lt (hr : s.run = some r) (hk : r.k + 1 < s.warriors.length) :
    s.advance = { s with run := some { r with k := r.k + 1 } } := by
  simp [State.advance, hr, hk]

theorem advance_of_tick_end (hr : s.run = some r) (hk : ¬ r.k + 1 < s.warriors.length) (hn : 1 < r.ticksLeft) :
    s.advance = { s with run := some { ticksLeft := r.ticksLeft - 1, k := 0 } } := by
  simp [State.advance, hr, hk, hn]

theorem advance_of_run_end (hr : s.run = some r) (hk : ¬ r.k + 1 < s.warriors.length) (hn : ¬ 1 < r.ticksLeft) :
    s.advance = s.finishRun .noWinner := by
  simp [State.advance, hr, hk, hn]

end

@[simp] theorem eliminate_core : (s.eliminate k w).core = s.core := by
  obtain ⟨h, -⟩ := eliminate_frame s k w; exact h

@[simp] theorem eliminate_maxCodeSize : (s.eliminate k w).maxCodeSize = s.maxCodeSize := by
  obtain ⟨-, h, -⟩ := eliminate_frame s k w; exact h

@[simp] theorem eliminate_warriors : (s.eliminate k w).warriors = s.warriors.set k { w with alive := false } := by
  obtain ⟨-, -, h, -⟩ := eliminate_frame s k w; exact h

@[simp] theorem eliminate_started : (s.eliminate k w).started = s.started := by
  obtain ⟨-, -, -, h, -⟩ := eliminate_frame s k w; exact h

/-- Elimination sets `FAULTED` by the fatal draw alone, which ends the Run (R98). -/
theorem eliminate_faulted_cases : (s.eliminate k w).faulted = s.faulted ∨
    (s.eliminate k w).faulted = true ∧ (s.eliminate k w).run = none ∧
      (s.eliminate k w).response = some (.error (.fatalDrawError k)) := by
  rcases checkTermination_cases (s.setWarrior k { w with alive := false }) k with ⟨-, h⟩ | ⟨-, h⟩ | ⟨-, h⟩ <;>
    rw [State.eliminate, h]
  · exact .inl rfl
  · exact .inr ⟨rfl, rfl, rfl⟩
  · exact .inl rfl

end Fields

/-! ### The start of a Run and the program's place -/

section Transactions

variable (s : State) (n : Int)

@[simp] theorem startRun_maxCodeSize : (s.startRun n).maxCodeSize = s.maxCodeSize := by
  rcases startRun_cases s n with ⟨-, h⟩ | ⟨-, -, h⟩ | ⟨-, -, h⟩ <;> rw [h] <;> rfl

@[simp] theorem startRun_warriors : (s.startRun n).warriors = s.warriors := by
  rcases startRun_cases s n with ⟨-, h⟩ | ⟨-, -, h⟩ | ⟨-, -, h⟩ <;> rw [h] <;> rfl

@[simp] theorem startRun_faulted : (s.startRun n).faulted = s.faulted := by
  rcases startRun_cases s n with ⟨-, h⟩ | ⟨-, -, h⟩ | ⟨-, -, h⟩ <;> rw [h] <;> rfl

variable (m : Memory) (i : Nat) (p : List Instr)

@[simp] theorem Memory.writeProgram_initAMode : (m.writeProgram i p).initAMode = m.initAMode := by
  induction p generalizing m i with
  | nil => rfl
  | cons c p ih => rw [Memory.writeProgram, ih, Memory.write_initAMode]

@[simp] theorem Memory.writeProgram_initBMode : (m.writeProgram i p).initBMode = m.initBMode := by
  induction p generalizing m i with
  | nil => rfl
  | cons c p ih => rw [Memory.writeProgram, ih, Memory.write_initBMode]

/-- What the checks of `Load` ensure (R115, R116, R120): the status bits are clear and the program's place is inside
the core. -/
theorem loadError_none {s : State} {address : Int} {p : List Instr} (h : s.loadError address p = none) :
    s.faulted = false ∧ s.started = false ∧ 0 ≤ address ∧ address + p.length < s.core.size := by
  obtain ⟨hf, hs, hp⟩ := (loadError_none_iff s address p).1 h
  simp only [WellFormed.placementLegal, Bool.and_eq_true, decide_eq_true_eq] at hp
  obtain ⟨⟨-, h0⟩, hlt⟩ := hp
  exact ⟨hf, hs, h0, hlt⟩

end Transactions

/-! ### The effects of a step -/

/-- Everything a step can make of `s`. -/
inductive StepEffect (s : State) : State → Prop
  /-- no Run is in progress and no transaction is issued (R112) -/
  | idle (hr : s.run = none) (hq : s.requests = []) : StepEffect s s
  /-- a transaction is answered and changes nothing of the block -/
  | answer {q : Request} {rest : List Request} {r : Response} (hr : s.run = none) (hq : s.requests = q :: rest)
      (hne : ∀ k, r ≠ .error (.eliminationSignal k)) : StepEffect s ({ s with requests := rest }.respond r)
  /-- a `Load` that passes every check (R117, R118) -/
  | load {name : String} {address : Int} {p : List Instr} {rest : List Request} (hr : s.run = none)
      (hq : s.requests = .load name address p :: rest) (hl : s.loadError address p = none) :
      StepEffect s ({ s with requests := rest }.register name address.toNat p)
  /-- the start of a Run (R95) -/
  | startRun {n : Int} {rest : List Request} (hr : s.run = none) (hq : s.requests = .run n :: rest) :
      StepEffect s ({ s with requests := rest }.startRun n)
  /-- the position holds no living warrior (R96) -/
  | skip {r : RunPos} (hr : s.run = some r) (ht : s.turn = none) : StepEffect s s.advance
  /-- a turn that executes DAT (R86) -/
  | eliminate {k : Nat} {w : Warrior} (hk : HasTurn s k w) (hop : (s.core.read w.address).op = .dat) :
      StepEffect s (s.eliminate k w).advance
  /-- a turn that executes another instruction `i` (R76, R94); `m` is the core it leaves -/
  | move {k : Nat} {w : Warrior} {i : Instr} {m : Memory} {a : Nat} (hk : HasTurn s k w)
      (hi : i = s.core.read w.address) (hop : i.op ≠ .dat)
      (hw : WritesOnly s.core m (resolve s.core w.address i.bmode i.b))
      (hm : m = s.core ∨ i.op = .mov ∨ i.op = .add) (ha : a < s.core.size) :
      StepEffect s ((s.withCore m).setWarrior k { w with address := a }).advance

theorem stepEffect_serve {s : State} (hr : s.run = none) : StepEffect s s.serve := by
  rcases serve_cases s with ⟨hq, h⟩ | ⟨q, rest, hq, h⟩
  · exact h.symm ▸ .idle hr hq
  · rw [h]
    rcases perform_cases { s with requests := rest } q with ⟨name, address, p, rfl, h⟩ | ⟨n, rfl, h⟩ | ⟨r, h, hne⟩
    · rw [h]
      rcases load_cases { s with requests := rest } name address p with ⟨e, he, hl⟩ | ⟨he, hl⟩ <;> rw [hl]
      · refine .answer hr hq fun k hk => loadError_ne_elimination _ address p k (he.trans ?_)
        rw [Response.error.inj hk]
      · exact .load hr hq he
    · exact h ▸ .startRun hr hq
    · exact h ▸ .answer hr hq hne

/-- Every step has one of the effects. -/
theorem stepEffect_of_step {s t : State} (h : step s = .next t) : StepEffect s t := by
  rcases step_next_cases h with ⟨hr, rfl⟩ | ⟨r, hr, ht, rfl⟩ | ⟨k, w, u, hk, hu, rfl⟩
  · exact stepEffect_serve hr
  · exact .skip hr ht
  · obtain ⟨k', w', hk', hcases⟩ := exec_next_cases hu
    obtain ⟨rfl, rfl⟩ : k' = k ∧ w' = w := by simpa [hk.turn, eq_comm] using hk'.turn
    rcases hcases with ⟨hop, rfl⟩ | ⟨hop, m, hm, hw, a, ha, rfl⟩
    · exact .eliminate hk hop
    · exact .move hk rfl hop hw (hm ▸ (execute_core hk.size_pos _ _).imp_right (·.1)) ha

end Sys2Proof.Machine
end

section
/-! PROOFS. What a step leaves unchanged (R21, R26, R27, R29, R30, R32), read off its effects. -/

namespace Sys2Proof.Machine

variable {s t : State} {k j : Nat} {v w w' : Warrior}

/-! ### The warrior table -/

theorem HasTurn.lt_length (hk : HasTurn s k w) : k < s.warriors.length :=
  (List.getElem?_eq_some_iff.1 hk.record).1

/-- The table after its own record's update in warrior `k`'s turn: another record stays. -/
theorem HasTurn.getElem?_set (hk : HasTurn s k w) (w' : Warrior) (hv : s.warriors[j]? = some v) :
    (s.warriors.set k w')[j]? = some v ∨ (j = k ∧ v = w) ∧ (s.warriors.set k w')[j]? = some w' := by
  by_cases h : k = j
  · subst h
    exact .inr ⟨⟨rfl, Option.some.inj (hv.symm.trans hk.record)⟩, List.getElem?_set_self hk.lt_length⟩
  · exact .inl ((List.getElem?_set_ne h).trans hv)

/-- Everything a step can do to a record of the table (R26, R27): keep it, clear `alive` by a DAT in its own turn, or
write its program counter by another instruction in its own turn. -/
theorem StepEffect.record (h : StepEffect s t) (hv : s.warriors[j]? = some v) :
    t.warriors[j]? = some v ∨
      (HasTurn s j v ∧ (s.core.read v.address).op = .dat ∧ t.warriors[j]? = some { v with alive := false }) ∨
      (HasTurn s j v ∧ (s.core.read v.address).op ≠ .dat ∧
        ∃ a < s.core.size, t.warriors[j]? = some { v with address := a }) := by
  cases h with
  | idle => exact .inl hv
  | answer => exact .inl hv
  | load =>
    obtain ⟨hlt, -⟩ := List.getElem?_eq_some_iff.1 hv
    exact .inl ((List.getElem?_append_left hlt).trans hv)
  | startRun => exact .inl (by simpa using hv)
  | skip => exact .inl (by simpa using hv)
  | eliminate hk hop =>
    rw [advance_warriors, eliminate_warriors]
    rcases hk.getElem?_set _ hv with h | ⟨⟨rfl, rfl⟩, h⟩
    · exact .inl h
    · exact .inr (.inl ⟨hk, hop, h⟩)
  | move hk hi hop _ _ ha =>
    rw [advance_warriors, State.setWarrior_warriors]
    rcases hk.getElem?_set _ hv with h | ⟨⟨rfl, rfl⟩, h⟩
    · exact .inl h
    · exact .inr (.inr ⟨hk, hi ▸ hop, _, ha, h⟩)

/-- A record that a step adds is a `Load`'s, and alive (R118). -/
theorem StepEffect.new_record_alive (h : StepEffect s t) (hv : s.warriors[j]? = none)
    (hw : t.warriors[j]? = some w') : w'.alive = true := by
  have hlen := List.getElem?_eq_none_iff.1 hv
  have hold : t.warriors.length = s.warriors.length → w'.alive = true := fun he => by
    rw [List.getElem?_eq_none (he ▸ hlen)] at hw
    cases hw
  cases h with
  | idle => exact hold rfl
  | answer => exact hold rfl
  | load =>
    rw [State.register, List.getElem?_append_right hlen] at hw
    obtain rfl := List.mem_singleton.1 (List.mem_of_getElem? hw)
    rfl
  | startRun => exact hold (by simp)
  | skip => exact hold (by simp)
  | eliminate => exact hold (by simp)
  | move => exact hold (by simp)

/-- Settles O27: of the three things a step can do to a record, DAT alone clears `alive`, and the other two keep a
dead one. -/
theorem deathOnlyByExecutingDat : Obligations.DeathOnlyByExecutingDat := by
  intro s t ht
  have he := stepEffect_of_step ht
  refine ⟨fun k w hw => ?_, fun k w' hw hw' => he.new_record_alive hw hw'⟩
  rcases he.record hw with h | ⟨hk, hop, h⟩ | ⟨hk, -, a, -, h⟩
  · exact ⟨w, h, rfl, fun _ => rfl, fun ha hd => absurd (ha.symm.trans hd) (by decide)⟩
  · exact ⟨_, h, rfl, fun hd => absurd (hk.alive.symm.trans hd) (by decide), fun _ _ => ⟨hk, hop, rfl⟩⟩
  · exact ⟨_, h, rfl, fun hd => absurd (hk.alive.symm.trans hd) (by decide),
      fun ha hd => absurd (ha.symm.trans hd) (by decide)⟩

/-- Settles O28: of the three things a step can do to a record, one writes the program counter. -/
theorem programCounterChangesOnlyInOwnTurn : Obligations.ProgramCounterChangesOnlyInOwnTurn := by
  intro s t k w w' ht hw hw' hne
  rcases (stepEffect_of_step ht).record hw with h | ⟨-, -, h⟩ | ⟨hk, hop, -⟩
  · cases hw'.symm.trans h
    exact absurd rfl hne
  · cases hw'.symm.trans h
    exact absurd rfl hne
  · exact ⟨hk, hop⟩

/-! ### The core and the configuration -/

/-- Everything a step can do to the core (R21): keep it, write the program of a `Load`, or write the cell that operand
B of a MOV or an ADD addresses. -/
theorem StepEffect.core_cases (h : StepEffect s t) : t.core = s.core ∨
    (s.run = none ∧ ∃ name address p rest, s.requests = .load name address p :: rest ∧
      s.loadError address p = none ∧ t.core = s.core.writeProgram address.toNat p) ∨
    (∃ k w c d, HasTurn s k w ∧
      ((s.core.read w.address).op = .mov ∨ (s.core.read w.address).op = .add) ∧
      resolve s.core w.address (s.core.read w.address).bmode (s.core.read w.address).b = .cell c ∧
      t.core = s.core.write c d) := by
  cases h with
  | idle => exact .inl rfl
  | answer => exact .inl rfl
  | load hr hq hl => exact .inr (.inl ⟨hr, _, _, _, _, hq, hl, rfl⟩)
  | startRun => exact .inl (startRun_core _ _)
  | skip => exact .inl (advance_core s)
  | eliminate => exact .inl (by rw [advance_core, eliminate_core])
  | move hk hi _ hw hm =>
    rw [advance_core, State.setWarrior_core, State.withCore_core]
    rcases hw with h | ⟨c, -, hc, d, h⟩
    · exact .inl h
    · exact hm.imp id fun hop => .inr ⟨_, _, c, d, hk, hi ▸ hop, hi ▸ hc, h⟩

/-- Settles O29, from what a read gives after each of the two kinds of write. -/
theorem coreIsWrittenOnlyByLoadMovAdd : Obligations.CoreIsWrittenOnlyByLoadMovAdd := by
  intro s t hwf ht hne
  rcases (stepEffect_of_step ht).core_cases with h | ⟨hr, name, address, p, rest, hq, hl, h⟩ |
    ⟨k, w, c, d, hk, hop, hc, h⟩
  · exact absurd h hne
  · obtain ⟨-, -, h0, hlt⟩ := loadError_none hl
    refine .inl ⟨hr, name, address, p, rest, hq, fun j hj => ?_⟩
    rw [h, Memory.read_writeProgram_outside hwf (by omega) (by omega)]
  · refine .inr ⟨k, w, c, hk, hop, hc, fun j hj => ?_⟩
    rw [h, Memory.read_write hwf, if_neg hj]

theorem StepEffect.maxCodeSize (h : StepEffect s t) : t.maxCodeSize = s.maxCodeSize := by
  cases h with
  | idle => rfl
  | answer => rfl
  | load => rfl
  | startRun => rw [startRun_maxCodeSize]
  | skip => rw [advance_maxCodeSize]
  | eliminate => rw [advance_maxCodeSize, eliminate_maxCodeSize]
  | move => rw [advance_maxCodeSize, State.setWarrior_maxCodeSize, State.withCore_maxCodeSize]

/-- Settles O30: neither kind of write to the core changes its parameters. -/
theorem configurationIsReadOnly : Obligations.ConfigurationIsReadOnly := by
  intro s t ht
  have he := stepEffect_of_step ht
  have hcore : t.core.size = s.core.size ∧ t.core.initAMode = s.core.initAMode ∧
      t.core.initBMode = s.core.initBMode := by
    rcases he.core_cases with h | ⟨-, name, address, p, rest, -, -, h⟩ | ⟨k, w, c, d, -, -, -, h⟩ <;> simp [h]
  obtain ⟨hsize, hmodes⟩ := hcore
  exact ⟨hsize, he.maxCodeSize, hmodes⟩

/-! ### The status bits -/

/-- What a step can do to `STARTED` (R30): keep it, or set it by serving a `Run`. -/
theorem StepEffect.started_cases (h : StepEffect s t) : t.started = s.started ∨
    t.started = true ∧ s.run = none ∧ ∃ n rest, s.requests = .run n :: rest := by
  cases h with
  | idle => exact .inl rfl
  | answer => exact .inl rfl
  | load => exact .inl rfl
  | @startRun n rest hr hq =>
    rcases startRun_cases { s with requests := rest } n with ⟨-, h⟩ | ⟨-, -, h⟩ | ⟨-, -, h⟩ <;> rw [h]
    · exact .inl rfl
    · exact .inr ⟨rfl, hr, n, rest, hq⟩
    · exact .inr ⟨rfl, hr, n, rest, hq⟩
  | skip => exact .inl (advance_started s)
  | eliminate => exact .inl (by rw [advance_started, eliminate_started])
  | move => exact .inl (by rw [advance_started, State.setWarrior_started, State.withCore_started])

/-- What a step can do to `FAULTED` (R30, R98): keep it, or set it by the fatal draw. -/
theorem StepEffect.faulted_cases (h : StepEffect s t) : t.faulted = s.faulted ∨
    t.faulted = true ∧ ∃ k w, HasTurn s k w ∧ (s.core.read w.address).op = .dat ∧
      t.run = none ∧ t.response = some (.error (.fatalDrawError k)) := by
  cases h with
  | idle => exact .inl rfl
  | answer => exact .inl rfl
  | load => exact .inl rfl
  | startRun => exact .inl (startRun_faulted _ _)
  | skip => exact .inl (advance_faulted s)
  | @eliminate k w hk hop =>
    rcases eliminate_faulted_cases s k w with h | ⟨hf, hr, hresp⟩
    · exact .inl (by rw [advance_faulted, h])
    · rw [advance_of_run_none hr]
      exact .inr ⟨hf, k, w, hk, hop, hr, hresp⟩
  | move => exact .inl (by rw [advance_faulted, State.setWarrior_faulted, State.withCore_faulted])

/-- Settles O31. -/
theorem statusBitsAreSticky : Obligations.StatusBitsAreSticky := by
  intro s t ht
  have he := stepEffect_of_step ht
  refine ⟨fun hs => ?_, fun hs hs' => ?_, fun hf => ?_, fun hf hf' => ?_⟩
  · exact he.started_cases.elim (·.trans hs) (·.1)
  · exact he.started_cases.elim (fun h => absurd (hs'.symm.trans (h.trans hs)) (by decide)) (·.2)
  · exact he.faulted_cases.elim (·.trans hf) (·.1)
  · exact he.faulted_cases.elim (fun h => absurd (hf'.symm.trans (h.trans hf)) (by decide)) (·.2)

/-! ### One instruction -/

/-- Settles O20: DAT by what elimination leaves as it is, another instruction by the one cell it can write. -/
theorem instructionTouchesOneCellAndItsOwnWarrior : Obligations.InstructionTouchesOneCellAndItsOwnWarrior := by
  intro i s t hwf ht
  obtain ⟨k, w, hk, ⟨hop, rfl⟩ | ⟨hop, m, hm, hw, a, ha, rfl⟩⟩ := exec_next_cases ht
  · obtain ⟨hc, hmax, hws, hst, hq⟩ := eliminate_frame s k w
    exact ⟨k, w, _, hk, hws, rfl, fun j _ => by rw [hc], by rw [hc], by rw [hc], by rw [hc], hmax, hst, hq,
      absurd hop, fun _ => rfl⟩
  · refine ⟨k, w, _, hk, rfl, rfl, fun j hj => ?_, hw.size, hw.initAMode, hw.initBMode, rfl, rfl, rfl,
      fun _ => ⟨hk.alive, rfl, rfl, rfl⟩, fun h => absurd h hop⟩
    rcases execute_core hk.size_pos i w.address with hsame | ⟨hwrites, -⟩
    · exact congrArg (Memory.read · j) (hm.trans hsame)
    · exact hw.read hwf fun hr => hj ⟨hwrites, hr⟩

end Sys2Proof.Machine
end

section
/-! PROOFS. The invariant of the block: that Construct establishes it and every effect of a step keeps it, and the
match status it gives (R31, R113). -/

namespace Sys2Proof.Machine

variable {s : State} {k a : Nat} {w : Warrior}

/-! ### The number of the living -/

theorem liveCount_eq_zero_iff (s : State) : s.liveCount = 0 ↔ ∀ w ∈ s.warriors, w.alive = false := by
  simp [State.liveCount, List.countP_eq_zero]

/-- A living warrior is counted. -/
theorem liveCount_ne_zero (hw : w ∈ s.warriors) (ha : w.alive = true) : s.liveCount ≠ 0 := fun h =>
  absurd (ha.symm.trans ((liveCount_eq_zero_iff s).1 h w hw)) (by decide)

/-! ### Construct -/

/-- Everything Construct can do (R29, R113). -/
theorem construct_cases (ia ib : Mode) (n c : Int) :
    (n < 1 ∧ State.construct ia ib n c = .error (.badConfig .coreSize)) ∨
      (1 ≤ n ∧ c < 1 ∧ State.construct ia ib n c = .error (.badConfig .maxCodeSize)) ∨
      (1 ≤ n ∧ 1 ≤ c ∧ State.construct ia ib n c = .ok (State.initial ia ib n.toNat c.toNat)) := by
  rcases Int.lt_or_le n 1 with hn | hn
  · exact .inl ⟨hn, by simp [State.construct, WellFormed.configValue, hn]⟩
  · rcases Int.lt_or_le c 1 with hc | hc
    · exact .inr (.inl ⟨hn, hc, by simp [State.construct, WellFormed.configValue, hn, hc]⟩)
    · exact .inr (.inr ⟨hn, hc, construct_of_legal ia ib hn hc⟩)

/-- Settles O32: the three outcomes of Construct, and the fields of the state it makes. -/
theorem constructGivesTheResetState : Obligations.ConstructGivesTheResetState := by
  intro ia ib n c
  refine ⟨rfl, ?_⟩
  rcases construct_cases ia ib n c with ⟨hn, h⟩ | ⟨hn, hc, h⟩ | ⟨hn, hc, h⟩
  · exact ⟨fun _ => h, fun hn' => by omega, fun hn' => by omega⟩
  · exact ⟨fun hn' => by omega, fun _ _ => h, fun _ hc' => by omega⟩
  · refine ⟨fun hn' => by omega, fun _ hc' => by omega, fun _ _ => ⟨_, h, ?_, ?_, fun i => rfl, rfl, rfl, rfl, rfl⟩⟩
    · exact Int.toNat_of_nonneg (by omega)
    · exact Int.toNat_of_nonneg (by omega)

theorem inv_initial (ia ib : Mode) {n c : Nat} (hn : 1 ≤ n) (hc : 1 ≤ c) : Inv (State.initial ia ib n c) where
  core := (Memory.wf_iff _).2 ⟨hn, rfl, fun c hc => absurd hc List.not_mem_nil⟩
  maxCodeSize := hc
  addresses _ hw := absurd hw List.not_mem_nil
  notStarted _ := ⟨rfl, fun _ hw => absurd hw List.not_mem_nil⟩
  faulted := by simp [State.initial]
  running _ hr := by cases hr
  noEscape _ h := by cases h

/-- Settles O39: the state that a successful Construct makes has the invariant, and reset is one. -/
theorem invariantHoldsAtReset : Obligations.InvariantHoldsAtReset := by
  refine ⟨inv_initial _ _ (by decide) (by decide), fun ia ib n c s hs => ?_⟩
  rcases construct_cases ia ib n c with ⟨-, h⟩ | ⟨-, -, h⟩ | ⟨hn, hc, h⟩
  · cases h.symm.trans hs
  · cases h.symm.trans hs
  · cases h.symm.trans hs
    exact inv_initial ia ib (by omega) (by omega)

/-! ### The match status -/

/-- Settles O38: under the invariant `FAULTED` is the count of the living (R31). -/
theorem matchStatusCountsTheLiving : Obligations.MatchStatusCountsTheLiving := by
  intro s hs
  obtain ⟨hfatal, hwon, hrunning⟩ := matchStatus_iff s
  have hempty : s.warriors = [] → s.liveCount = 0 := fun h => by simp [State.liveCount, h]
  have hclear : s.faulted = false ↔ s.warriors = [] ∨ s.liveCount ≠ 0 := by
    rw [← Bool.not_eq_true, hs.faulted, not_and_or, not_not]
  refine ⟨?_, ?_, ?_⟩
  · rw [hfatal, hs.faulted, liveCount_eq_zero_iff]
  · rw [hwon, hclear]
    exact ⟨(·.2), fun h => ⟨.inr (by omega), h⟩⟩
  · rw [hrunning, hclear]
    constructor
    · rintro ⟨h | h, hne⟩
      · exact .inl h
      · exact .inr (by omega)
    · rintro (h | h)
      · exact ⟨.inl h, by have := hempty h; omega⟩
      · exact ⟨.inr (by omega), by omega⟩

/-! ### The step -/

/-- The invariant does not look at the host's requests (log entry 2). -/
theorem inv_withRequests (h : Inv s) (rest : List Request) : Inv { s with requests := rest } :=
  ⟨h.core, h.maxCodeSize, h.addresses, h.notStarted, h.faulted, h.running, h.noEscape⟩

/-- An answer between Runs, no elimination signal, keeps the invariant (R91). -/
theorem inv_respond (h : Inv s) (hr : s.run = none) {r : Response} (hne : ∀ k, r ≠ .error (.eliminationSignal k)) :
    Inv (s.respond r) where
  core := h.core
  maxCodeSize := h.maxCodeSize
  addresses := h.addresses
  notStarted := h.notStarted
  faulted := h.faulted
  running p hp := by cases hr.symm.trans hp
  noEscape k hk := hne k (Option.some.inj hk)

/-- The end of a Run that has been started keeps the invariant (R33). -/
theorem inv_finishRun (h : Inv s) (hs : s.started = true) {r : Response}
    (hne : ∀ k, r ≠ .error (.eliminationSignal k)) : Inv (s.finishRun r) where
  core := h.core
  maxCodeSize := h.maxCodeSize
  addresses := h.addresses
  notStarted hs' := absurd (hs.symm.trans hs') (by decide)
  faulted := h.faulted
  running p hp := by cases hp
  noEscape k hk := hne k (Option.some.inj hk)

/-- A `Load` that passes every check keeps the invariant: it registers a living warrior inside the core (R116). -/
theorem inv_register (h : Inv s) (hr : s.run = none) (name : String) {address : Int} {p : List Instr}
    (hl : s.loadError address p = none) : Inv (s.register name address.toNat p) := by
  obtain ⟨hf, hs, h0, hlt⟩ := loadError_none hl
  obtain ⟨-, halive⟩ := h.notStarted hs
  have hnew : ∀ {P : Warrior → Prop}, (∀ w ∈ s.warriors, P w) → P ⟨name, address.toNat, true⟩ →
      ∀ w ∈ (s.register name address.toNat p).warriors, P w := fun hold hP w hw =>
    (List.mem_append.1 hw).elim (hold w) fun hw => List.mem_singleton.1 hw ▸ hP
  exact
    { core := Memory.writeProgram_wf h.core (by omega)
      maxCodeSize := h.maxCodeSize
      addresses := by
        rw [State.register, Memory.writeProgram_size]
        exact hnew h.addresses (by show address.toNat < s.core.size; omega)
      notStarted := fun _ => ⟨hr, hnew halive rfl⟩
      faulted := ⟨fun hf' => absurd (hf.symm.trans hf') (by decide), fun ⟨_, hc⟩ =>
        absurd hc (liveCount_ne_zero (w := ⟨name, address.toNat, true⟩) (by simp [State.register]) rfl)⟩
      running := fun r' hr' => by cases hr.symm.trans hr'
      noEscape := fun k hk => by cases hk }

/-- The position at which a tick starts stands inside the table (R103; log entry 1 for an empty one). -/
theorem firstPosition_inside (ws : List Warrior) : 0 < ws.length ∨ ws = [] ∧ 0 = 0 := by
  cases ws with
  | nil => exact .inr ⟨rfl, rfl⟩
  | cons w ws => exact .inl (Nat.succ_pos _)

/-- The acceptance of a `Run` keeps the invariant (R95, R101). -/
theorem inv_startRun (h : Inv s) (hr : s.run = none) (n : Int) : Inv (s.startRun n) := by
  have hstarted : Inv { s with started := true } :=
    { h with
      notStarted := fun hs => by cases hs
      running := fun r hr' => by cases hr.symm.trans hr' }
  rcases startRun_cases s n with ⟨-, ht⟩ | ⟨-, -, ht⟩ | ⟨hf, hn, ht⟩ <;> rw [ht]
  · exact inv_respond h hr (by simp)
  · exact inv_finishRun hstarted rfl (by simp)
  · exact
      { hstarted with
        notStarted := fun hs => by cases hs
        running := fun r hr' => by
          cases hr'
          exact ⟨by show 1 ≤ n.toNat; omega, firstPosition_inside _, hf, rfl⟩
        noEscape := fun k hk => by cases hk }

theorem Inv.started_of_run (h : Inv s) {r : RunPos} (hr : s.run = some r) : s.started = true := by
  by_contra hs
  obtain ⟨hnone, -⟩ := h.notStarted (Bool.not_eq_true _ ▸ hs)
  cases hnone.symm.trans hr

/-- A new position inside the table, with a tick to run, keeps the invariant (R103). -/
theorem inv_withRun (h : Inv s) {r r' : RunPos} (hr : s.run = some r) (hticks : 1 ≤ r'.ticksLeft)
    (hk : r'.k < s.warriors.length ∨ s.warriors = [] ∧ r'.k = 0) : Inv { s with run := some r' } := by
  obtain ⟨-, -, hf, hresp⟩ := h.running r hr
  exact
    { h with
      notStarted := fun hs => absurd ((h.started_of_run hr).symm.trans hs) (by decide)
      running := fun p hp => by cases hp; exact ⟨hticks, hk, hf, hresp⟩ }

/-- The scheduler's move keeps the invariant. -/
theorem inv_advance (h : Inv s) : Inv s.advance := by
  rcases advance_cases s with ⟨-, ht⟩ | ⟨r, hr, ⟨hk, ht⟩ | ⟨-, hl, ht⟩ | ⟨-, -, ht⟩⟩ <;> rw [ht]
  · exact h
  · obtain ⟨hticks, -⟩ := h.running r hr
    exact inv_withRun h hr hticks (.inl hk)
  · exact inv_withRun h hr (by show 1 ≤ r.ticksLeft - 1; omega) (firstPosition_inside _)
  · exact inv_finishRun h (h.started_of_run hr) (by simp)

/-- Another core in canonical form and of the same size keeps the invariant. -/
theorem inv_withCore (h : Inv s) {m : Memory} (hm : m.wf = true) (hsize : m.size = s.core.size) :
    Inv (s.withCore m) :=
  { h with
    core := hm
    addresses := fun w hw => hsize ▸ h.addresses w hw }

/-- The start of a Run precedes every turn (R95), and the block is not faulted in one. -/
theorem Inv.of_hasTurn (h : Inv s) (hk : HasTurn s k w) : s.started = true ∧ s.faulted = false := by
  obtain ⟨r, hr, -⟩ := Option.map_eq_some_iff.1 hk.position
  obtain ⟨-, -, hf, -⟩ := h.running r hr
  exact ⟨h.started_of_run hr, hf⟩

/-- Every program counter is inside the core after one of them is written so (R26). -/
theorem addresses_set (h : Inv s) {w' : Warrior} (ha : w'.address < s.core.size) :
    ∀ v ∈ s.warriors.set k w', v.address < s.core.size := fun v hv =>
  (List.mem_or_eq_of_mem_set hv).elim (h.addresses v) fun he => he ▸ ha

/-- The update of the record that has the turn keeps the invariant as long as a warrior lives. -/
theorem inv_setWarrior (h : Inv s) (hk : HasTurn s k w) {w' : Warrior} (ha : w'.address < s.core.size)
    (hlive : (s.setWarrior k w').liveCount ≠ 0) : Inv (s.setWarrior k w') := by
  obtain ⟨hs, hf⟩ := h.of_hasTurn hk
  exact
    { core := h.core
      maxCodeSize := h.maxCodeSize
      addresses := addresses_set h ha
      notStarted := fun hs' => absurd (hs.symm.trans hs') (by decide)
      faulted := ⟨fun hf' => absurd (hf.symm.trans hf') (by decide), fun ⟨_, hc⟩ => absurd hc hlive⟩
      running := fun r hr => by simpa using h.running r hr
      noEscape := h.noEscape }

/-- Another instruction than DAT keeps the invariant: the core stays canonical and its warrior stays alive, inside the
core (R26, R94). -/
theorem inv_move (h : Inv s) (hk : HasTurn s k w) {m : Memory} (hm : m.wf = true) (hsize : m.size = s.core.size)
    (ha : a < s.core.size) : Inv ((s.withCore m).setWarrior k { w with address := a }) := by
  refine inv_setWarrior (inv_withCore h hm hsize) (hk.withCore hsize) (hsize ▸ ha) ?_
  exact liveCount_ne_zero (List.mem_set hk.lt_length _) hk.alive

/-- Elimination keeps the invariant: `FAULTED` is set exactly when none is left (R97, R98). -/
theorem inv_eliminate (h : Inv s) (hk : HasTurn s k w) : Inv (s.eliminate k w) := by
  obtain ⟨hs, -⟩ := h.of_hasTurn hk
  have hset := inv_setWarrior h hk (w' := { w with alive := false }) hk.inCore
  rcases checkTermination_cases (s.setWarrior k { w with alive := false }) k with ⟨hc, ht⟩ | ⟨hc, ht⟩ | ⟨hc, ht⟩ <;>
    rw [State.eliminate, ht]
  · exact inv_finishRun (hset (by omega)) hs (by simp)
  · exact
      { core := h.core
        maxCodeSize := h.maxCodeSize
        addresses := addresses_set h hk.inCore
        notStarted := fun hs' => absurd (hs.symm.trans hs') (by decide)
        faulted := ⟨fun _ => ⟨List.ne_nil_of_mem (List.mem_set hk.lt_length _), hc⟩, fun _ => rfl⟩
        running := fun r hr => by cases hr
        noEscape := fun j hj => by cases hj }
  · exact hset (by omega)

/-- Settles O40: the invariant is kept by each effect a step can have. -/
theorem everyStepKeepsTheInvariant : Obligations.EveryStepKeepsTheInvariant := by
  intro s t hs ht
  cases stepEffect_of_step ht with
  | idle => exact hs
  | @answer q rest r hr _ hne => exact inv_respond (inv_withRequests hs rest) hr hne
  | @load name _ _ rest hr _ hl => exact inv_register (inv_withRequests hs rest) hr name hl
  | @startRun n rest hr _ => exact inv_startRun (inv_withRequests hs rest) hr n
  | skip => exact inv_advance hs
  | eliminate hk => exact inv_advance (inv_eliminate hs hk)
  | move hk _ _ hw _ ha => exact inv_advance (inv_move hs hk (hw.wf hs.core) hw.size ha)

end Sys2Proof.Machine
end

section
/-! PROOFS. Other names (R23): every operation on the state commutes with replacing the names it holds. -/

namespace Sys2Proof.Machine

variable (f : String → String) (s : State)

/-- The outcome of a step with the names in the next state replaced; a stop holds none. -/
def outcomeRenamed : Host.Outcome State Fault Refusal → Host.Outcome State Fault Refusal
  | .next t => .next (t.renamed f)
  | .fault e => .fault e
  | .refused r => .refused r

theorem renamed_ite (p : Prop) [Decidable p] (s t : State) :
    (if p then s else t).renamed f = if p then s.renamed f else t.renamed f :=
  apply_ite (State.renamed f) p s t

/-! ### The fields -/

@[simp] theorem renamed_warriors : (s.renamed f).warriors = s.warriors.map (·.renamed f) := rfl
@[simp] theorem renamed_faulted : (s.renamed f).faulted = s.faulted := rfl
@[simp] theorem renamed_run : (s.renamed f).run = s.run := rfl
@[simp] theorem renamed_requests : (s.renamed f).requests = s.requests.map (·.renamed f) := rfl

@[simp] theorem liveCount_renamed : (s.renamed f).liveCount = s.liveCount := List.countP_map

@[simp] theorem survivor_renamed : (s.renamed f).survivor = s.survivor := List.findIdx_map ..

theorem matchStatus_renamed : (s.renamed f).matchStatus = s.matchStatus := by
  simp only [State.matchStatus, renamed_faulted, liveCount_renamed]

/-! ### A turn -/

theorem setWarrior_renamed (k : Nat) (w : Warrior) :
    (s.renamed f).setWarrior k (w.renamed f) = (s.setWarrior k w).renamed f := by
  simp [State.setWarrior, State.renamed, List.map_set]

theorem checkTermination_renamed (k : Nat) :
    (s.renamed f).checkTermination k = (s.checkTermination k).renamed f := by
  simp only [State.checkTermination, renamed_ite, liveCount_renamed, survivor_renamed]
  rfl

theorem applyResult_renamed (k : Nat) (w : Warrior) (r : Result) :
    (s.renamed f).applyResult k (w.renamed f) r = (s.applyResult k w r).renamed f := by
  cases r with
  | next => exact setWarrior_renamed f s k { w with address := s.core.norm ((w.address : Int) + 1) }
  | skip => exact setWarrior_renamed f s k { w with address := s.core.norm ((w.address : Int) + 2) }
  | jump t => exact setWarrior_renamed f s k { w with address := t }
  | eliminate =>
    rw [State.applyResult, State.applyResult, State.eliminate, State.eliminate, ← checkTermination_renamed,
      ← setWarrior_renamed]
    rfl

theorem turn_renamed : (s.renamed f).turn = s.turn.map (Prod.map id (Warrior.renamed f)) := by
  unfold State.turn
  rw [renamed_run]
  cases s.run with
  | none => rfl
  | some r =>
    simp only [renamed_warriors, List.getElem?_map]
    cases s.warriors[r.k]? with
    | none => rfl
    | some w => cases ha : w.alive <;> simp [Warrior.renamed, ha]

theorem takeTurn_renamed (g : Memory → Nat → Memory × Result) :
    (s.renamed f).takeTurn g = outcomeRenamed f (s.takeTurn g) := by
  unfold State.takeTurn
  rw [turn_renamed]
  cases s.turn with
  | none => rfl
  | some p =>
    obtain ⟨k, w⟩ := p
    show (if w.address < s.core.size then _ else _) = outcomeRenamed f (if w.address < s.core.size then _ else _)
    split
    · exact congrArg _ (applyResult_renamed f (s.withCore (g s.core w.address).1) k w (g s.core w.address).2)
    · rfl

/-! ### The scheduler -/

theorem advance_renamed : (s.renamed f).advance = s.advance.renamed f := by
  unfold State.advance
  rw [renamed_run]
  cases s.run with
  | none => rfl
  | some r =>
    simp only [renamed_ite, renamed_warriors, List.length_map]
    rfl

theorem slot_renamed : (s.renamed f).slot = s.slot := by
  unfold State.slot
  rw [renamed_run, turn_renamed]
  cases s.run with
  | none => rfl
  | some r =>
    cases s.turn with
    | none => rfl
    | some p => rfl

/-! ### The host's transactions -/

theorem load_renamed (name : String) (address : Int) (p : List Instr) :
    (s.renamed f).load (f name) address p = (s.load name address p).renamed f := by
  have he : (s.renamed f).loadError address p = s.loadError address p := rfl
  rcases load_cases s name address p with ⟨e, hl, ht⟩ | ⟨hl, ht⟩
  · rw [ht, State.load, he, hl]
    rfl
  · rw [ht, State.load, he, hl]
    simp [State.register, State.renamed, Response.renamed, Warrior.renamed]

theorem startRun_renamed (n : Int) : (s.renamed f).startRun n = (s.startRun n).renamed f := by
  simp only [State.startRun, renamed_ite]
  rfl

theorem decodeResponse_renamed (x : List Byte) : (decodeResponse x).renamed f = decodeResponse x := by
  unfold decodeResponse
  split <;> rfl

theorem decodeProgramResponse_renamed (x : List Byte) :
    (decodeProgramResponse x).renamed f = decodeProgramResponse x := by
  unfold decodeProgramResponse
  split <;> rfl

/-- An answer between Runs, its names replaced. -/
theorem respond_renamed (r : Response) : (s.renamed f).respond (r.renamed f) = (s.respond r).renamed f := rfl

theorem observe_renamed : Response.observed (s.renamed f).observe = (Response.observed s.observe).renamed f := by
  simp only [Response.renamed, State.observe, matchStatus_renamed]
  rfl

theorem perform_renamed (q : Request) : (s.renamed f).perform (q.renamed f) = (s.perform q).renamed f := by
  cases q with
  | load name address p => exact load_renamed f s name address p
  | run n => exact startRun_renamed f s n
  | encode i => rfl
  | decode x =>
    rw [State.perform, ← respond_renamed, decodeResponse_renamed]
    rfl
  | encodeProgram p => rfl
  | decodeProgram x =>
    rw [State.perform, ← respond_renamed, decodeProgramResponse_renamed]
    rfl
  | observe =>
    rw [State.perform, ← respond_renamed, ← observe_renamed]
    rfl

theorem serve_renamed : (s.renamed f).serve = s.serve.renamed f := by
  rcases serve_cases s with ⟨hq, h⟩ | ⟨q, rest, hq, h⟩ <;> rw [h, State.serve, renamed_requests, hq]
  · rfl
  · exact perform_renamed f { s with requests := rest } q

/-! ### The step -/

/-- Every step commutes with the renaming, a stop included. -/
theorem step_renamed : step (s.renamed f) = outcomeRenamed f (step s) := by
  unfold step
  rw [slot_renamed]
  cases s.slot with
  | idle => exact congrArg _ (serve_renamed f s)
  | skip => exact congrArg _ (advance_renamed f s)
  | turn i =>
    simp only [exec_eq_takeTurn, takeTurn_renamed]
    cases s.takeTurn (execute i) with
    | next t => exact congrArg _ (advance_renamed f t)
    | fault e => rfl
    | refused r => rfl
  | noCell a => rfl

/-- Settles O46: the step commutes with the renaming. -/
theorem namesAreNeverRead : Obligations.NamesAreNeverRead := by
  intro f s
  exact ⟨fun t ht => by rw [step_renamed, ht]; rfl, fun e he => by rw [step_renamed, he]; rfl⟩

end Sys2Proof.Machine
end

section
/-! PROOFS. Another response (log entry 2): no part of a step reads it, so each part either writes the response anew or
carries it along. -/

namespace Sys2Proof.Machine

/-- The state with another response. -/
def State.withResponse (s : State) (r : Option Response) : State := { s with response := r }

/-- The operation does not read the response of `s`: with another one it does the same, its new response included, or
it keeps the response and does the same with the other one kept. -/
def ResponseBlind (op : State → State) (s : State) : Prop :=
  ∀ r, op (s.withResponse r) = op s ∨
    (op s).response = s.response ∧ op (s.withResponse r) = (op s).withResponse r

/-- One operation after another: a response the second writes anew counts, and so does one the first does and the second
carries along. -/
theorem ResponseBlind.comp {op op' : State → State} {s : State} (h : ResponseBlind op s)
    (h' : ResponseBlind op' (op s)) : ResponseBlind (fun s => op' (op s)) s := by
  intro r
  rcases h r with he | ⟨hk, he⟩
  · exact .inl (congrArg op' he)
  · simp only [he]
    exact (h' r).imp_right fun ⟨hk', he'⟩ => ⟨hk'.trans hk, he'⟩

section

variable (s : State) (k : Nat) (w : Warrior) (m : Memory) (r : Option Response)

@[simp] theorem withResponse_requests : (s.withResponse r).requests = s.requests := rfl

/-! ### A turn -/

theorem responseBlind_withCore : ResponseBlind (State.withCore · m) s := fun _ => .inr ⟨rfl, rfl⟩

theorem responseBlind_setWarrior : ResponseBlind (State.setWarrior · k w) s := fun _ => .inr ⟨rfl, rfl⟩

/-- The termination check carries the response along if the Run goes on, and writes it otherwise (R97, R98). -/
theorem responseBlind_checkTermination : ResponseBlind (State.checkTermination · k) s := by
  intro r
  have hlive : (s.withResponse r).liveCount = s.liveCount := rfl
  simp only [State.checkTermination, hlive]
  split
  · exact .inl rfl
  · split
    · exact .inl rfl
    · exact .inr ⟨rfl, rfl⟩

theorem responseBlind_applyResult (res : Result) : ResponseBlind (State.applyResult · k w res) s := by
  cases res with
  | next => exact responseBlind_setWarrior s k { w with address := s.core.norm ((w.address : Int) + 1) }
  | skip => exact responseBlind_setWarrior s k { w with address := s.core.norm ((w.address : Int) + 2) }
  | jump t => exact responseBlind_setWarrior s k { w with address := t }
  | eliminate => exact (responseBlind_setWarrior s k _).comp (responseBlind_checkTermination _ k)

/-- The scheduler's move carries the response along if the Run goes on, and writes it otherwise (R99, R103). -/
theorem responseBlind_advance : ResponseBlind State.advance s := by
  intro r
  cases hr : s.run with
  | none =>
    rw [advance_of_run_none hr, advance_of_run_none (s := s.withResponse r) hr]
    exact .inr ⟨rfl, rfl⟩
  | some p =>
    by_cases hk : p.k + 1 < s.warriors.length
    · rw [advance_of_lt hr hk, advance_of_lt (s := s.withResponse r) hr hk]
      exact .inr ⟨rfl, rfl⟩
    · by_cases hn : 1 < p.ticksLeft
      · rw [advance_of_tick_end hr hk hn, advance_of_tick_end (s := s.withResponse r) hr hk hn]
        exact .inr ⟨rfl, rfl⟩
      · rw [advance_of_run_end hr hk hn, advance_of_run_end (s := s.withResponse r) hr hk hn]
        exact .inl rfl

theorem responseBlind_turn (res : Result) :
    ResponseBlind (fun s => ((s.withCore m).applyResult k w res).advance) s :=
  ((responseBlind_withCore s m).comp (responseBlind_applyResult _ k w res)).comp (responseBlind_advance _)

/-! ### The host's transactions -/

/-- Every transaction writes the response. -/
theorem perform_withResponse (q : Request) : (s.withResponse r).perform q = s.perform q := by
  cases q with
  | load name address p => rfl
  | run n => rfl
  | encode i => rfl
  | decode x => rfl
  | encodeProgram p => rfl
  | decodeProgram x => rfl
  | observe => rfl

theorem responseBlind_serve : ResponseBlind State.serve s := by
  intro r
  rcases serve_cases s with ⟨hq, h⟩ | ⟨q, rest, hq, h⟩ <;> rw [h, State.serve, withResponse_requests, hq]
  · exact .inr ⟨rfl, rfl⟩
  · exact .inl (perform_withResponse { s with requests := rest } r q)

end

/-! ### The step -/

/-- What the obligation asks of one step, for a step that is such an operation. -/
theorem ResponseBlind.step {op : State → State} {s : State} (h : ResponseBlind op s)
    (hstep : ∀ r, step (s.withResponse r) = .next (op (s.withResponse r))) (r : Option Response) :
    Machine.step (s.withResponse r) = .next (op s) ∨
      (op s).response = s.response ∧ Machine.step (s.withResponse r) = .next ((op s).withResponse r) := by
  rw [hstep]
  exact (h r).imp (congrArg _) fun ⟨hk, he⟩ => ⟨hk, congrArg _ he⟩

theorem HasTurn.withResponse {s : State} {k : Nat} {w : Warrior} (h : HasTurn s k w) (r : Option Response) :
    HasTurn (s.withResponse r) k w :=
  ⟨h.position, h.record, h.alive, h.inCore⟩

/-- Settles O47: whether the step serves, passes over or runs a turn, it is an operation that does not read the
response. -/
theorem responseIsNeverRead : Obligations.ResponseIsNeverRead := by
  intro s t r ht
  rcases step_next_cases ht with ⟨hr, rfl⟩ | ⟨p, hr, hturn, rfl⟩ | ⟨k, w, u, hk, hu, rfl⟩
  · exact (responseBlind_serve s).step (fun r => step_idle (s := s.withResponse r) hr) r
  · exact (responseBlind_advance s).step (fun r => step_skip (s := s.withResponse r) hr hturn) r
  · rw [hk.exec] at hu
    cases hu
    refine (responseBlind_turn s k w _ _).step (fun r => ?_) r
    rw [(hk.withResponse r).step, (hk.withResponse r).exec]
    rfl

end Sys2Proof.Machine
end

section
/-! PROOFS. The memory view and its accesses (R37 to R54): where operands resolve, that a write through a literal is
lost, and that no access of a well-formed state's step can stop it. -/

namespace Sys2Proof.Machine

variable {s : State} {k : Nat} {w : Warrior} {m m' : Memory}

/-! ### The step of a well-formed state -/

/-- Under the invariant a living warrior at the position of the Run can fetch: its address is a cell (R26, R51). -/
theorem Inv.hasTurn_of_turn (h : Inv s) (ht : s.turn = some (k, w)) : HasTurn s k w := by
  obtain ⟨hpos, hrec, halive⟩ := turn_eq_some ht
  exact ⟨hpos, hrec, halive, h.addresses w (List.mem_of_getElem? hrec)⟩

/-- A turn completes whatever instruction it fetches (R90). -/
theorem HasTurn.step_next (h : HasTurn s k w) : ∃ t, Machine.step s = .next t := by
  rw [h.step, h.exec]
  exact ⟨_, rfl⟩

/-- Settles O41: a step serves, passes over or runs a turn, and under the invariant each of the three completes. -/
theorem noStepStopsFromAWellFormedState : Obligations.NoStepStopsFromAWellFormedState := by
  intro s hs
  cases hr : s.run with
  | none => exact ⟨_, step_idle hr⟩
  | some r =>
    cases ht : s.turn with
    | none => exact ⟨_, step_skip hr ht⟩
    | some p => exact (hs.hasTurn_of_turn (w := p.2) ht).step_next

/-! ### Where operands resolve -/

@[simp] theorem resolve_immediate (m : Memory) (base : Nat) (v : Word) : resolve m base .immediate v = .imm v := rfl

/-- The cell of a view is congruent to the exact sum of base and offset (R37, R38). -/
theorem Memory.view_dvd_sub (h : 1 ≤ m.size) (base : Nat) (off : Int) :
    (m.size : Int) ∣ ((base : Int) + off) - (m.view base off : Int) := Memory.norm_dvd_sub h _

/-- Settles O9: the cells are the view of the operand, and the view of the B-field found there (R41, R42). -/
theorem operandsResolveInsideTheCore : Obligations.OperandsResolveInsideTheCore := by
  intro m base v hbase
  have hm : 1 ≤ m.size := by omega
  refine ⟨resolve_immediate m base v, m.view base v.toInt, Memory.view_lt hm _ _, Memory.view_dvd_sub hm _ _, rfl, ?_⟩
  exact ⟨m.view base (m.readB (m.view base v.toInt)).toInt, Memory.view_lt hm _ _, Memory.view_dvd_sub hm _ _, rfl,
    rfl, rfl, rfl⟩

/-! ### Writes through a literal -/

@[simp] theorem writeCell_imm (m : Memory) (v : Word) (c : Instr) : writeCell m (.imm v) c = m := rfl
@[simp] theorem writeB_imm (m : Memory) (v x : Word) : writeB m (.imm v) x = m := rfl

theorem WritesOnly.eq_of_imm {v : Word} (h : WritesOnly m m' (.imm v)) : m' = m := by
  rcases h with h | ⟨i, -, hi, -⟩
  · exact h
  · cases hi

/-- An instruction whose operand B is immediate leaves the core as it was (R48). -/
theorem execute_core_of_immediate (h : 1 ≤ m.size) {i : Instr} (hi : i.bmode = .immediate) (base : Nat) :
    (execute i m base).1 = m := by
  have hw := execute_writes h i base
  rw [hi, resolve_immediate] at hw
  exact hw.eq_of_imm

/-- In a turn, an instruction whose operand B is immediate completes with the core as it was (R48). -/
theorem HasTurn.exec_core_of_immediate (h : HasTurn s k w) {i : Instr} (hi : i.bmode = .immediate) :
    ∃ t, Machine.exec i s = .next t ∧ t.core = s.core := by
  refine ⟨_, h.exec i, ?_⟩
  rw [applyResult_core]
  exact execute_core_of_immediate h.size_pos hi w.address

/-- Settles O12. -/
theorem immediateWriteChangesNoCell : Obligations.ImmediateWriteChangesNoCell :=
  ⟨fun m v x c => ⟨writeCell_imm m v c, writeB_imm m v x⟩, fun _ _ _ _ _ _ hk =>
    ⟨hk.exec_core_of_immediate rfl, hk.exec_core_of_immediate rfl⟩⟩

end Sys2Proof.Machine
end

section
/-! PROOFS. The codec of one record (R61 to R67, R70 to R72, R75): what the decoder answers on fourteen bytes, that a
record decodes exactly to the instruction it encodes, and where an encoded record holds each field. -/

namespace Sys2Proof

/-! ### The parts of a record -/

theorem modeOfByte_eq_some {b : Byte} {m : Mode} : modeOfByte b = some m ↔ b = modeByte m := by
  constructor
  · intro h
    exact (modeByte_of_modeOfByte h).symm
  · rintro rfl
    exact modeOfByte_modeByte m

theorem modeOfByte_eq_none {b : Byte} (h : ∀ m, b ≠ modeByte m) : modeOfByte b = none :=
  Option.eq_none_iff_forall_ne_some.2 fun m hm => h m (modeOfByte_eq_some.1 hm)

/-- The legal mode bytes of R72 are those of the three modes (R65). -/
theorem modeByteLegal_iff {b : Byte} : WellFormed.modeByteLegal b = true ↔ ∃ m, b = modeByte m := by
  constructor
  · intro h
    simp only [WellFormed.modeByteLegal, Bool.or_eq_true, beq_iff_eq] at h
    rcases h with (h | h) | h
    · exact ⟨.immediate, h⟩
    · exact ⟨.direct, h⟩
    · exact ⟨.indirect, h⟩
  · rintro ⟨m, rfl⟩
    cases m <;> decide

theorem toInt_eq_sext32 (u : Word) : u.toInt = Machine.sext32 u.toNat := by
  rw [BitVec.toInt_eq_toNat_cond, Machine.sext32]
  split <;> split <;> omega

/-- Four bytes hold a number below 2^32, so no part of it is cut off (R64). -/
theorem toNat_wordOfBytes (b0 b1 b2 b3 : Byte) : (wordOfBytes b0 b1 b2 b3).toNat =
    b0.toNat + 256 * b1.toNat + 65536 * b2.toNat + 16777216 * b3.toNat := by
  rw [wordOfBytes, BitVec.toNat_ofNat]
  omega

theorem toInt_wordOfBytes (b0 b1 b2 b3 : Byte) : (wordOfBytes b0 b1 b2 b3).toInt =
    Machine.sext32 (b0.toNat + 256 * b1.toNat + 65536 * b2.toNat + 16777216 * b3.toNat) := by
  rw [toInt_eq_sext32, toNat_wordOfBytes]

/-- Byte `n` of a field is its digit `n` in base 256 (R64). -/
theorem le32_getElem? (u : Word) {n : Nat} (hn : n < 4) :
    ((le32 u)[n]?).map (·.toNat) = some (u.toNat / 256 ^ n % 256) := by
  have h (k : Nat) : (u.extractLsb' k 8).toNat = u.toNat / 2 ^ k % 256 := by
    rw [BitVec.extractLsb'_toNat, Nat.shiftRight_eq_div_pow]
  interval_cases n <;> simp [le32, h]

/-! ### Fourteen bytes -/

/-- The fourteen bytes of a record by the names of R61: mnemonic, padding, the two fields and the two modes. -/
structure WireRecord where
  (o0 o1 o2 pad a0 a1 a2 a3 b0 b1 b2 b3 ma mb : Byte)

namespace WireRecord

/-- The record as the decoder is given it (R61). -/
def bytes (r : WireRecord) : List Byte :=
  [r.o0, r.o1, r.o2, r.pad, r.a0, r.a1, r.a2, r.a3, r.b0, r.b1, r.b2, r.b3, r.ma, r.mb]

/-- The Instruction of the fields that the bytes hold, with this opcode and these modes (R67). -/
def instr (r : WireRecord) (op : Opcode) (ma mb : Mode) : Instr :=
  .make op (wordOfBytes r.a0 r.a1 r.a2 r.a3) (wordOfBytes r.b0 r.b1 r.b2 r.b3) ma mb

theorem exists_bytes_eq {x : List Byte} (h : x.length = 14) : ∃ r : WireRecord, r.bytes = x := by
  match x, h with
  | [o0, o1, o2, pad, a0, a1, a2, a3, b0, b1, b2, b3, ma, mb], _ =>
    exact ⟨⟨o0, o1, o2, pad, a0, a1, a2, a3, b0, b1, b2, b3, ma, mb⟩, rfl⟩

variable (r : WireRecord) {op : Opcode} {ma mb : Mode}

@[simp] theorem bytes_length : r.bytes.length = 14 := rfl
@[simp] theorem bytes_take_three : r.bytes.take 3 = [r.o0, r.o1, r.o2] := rfl
@[simp] theorem bytes_pad : r.bytes[3]? = some r.pad := rfl
@[simp] theorem bytes_ma : r.bytes[12]? = some r.ma := rfl
@[simp] theorem bytes_mb : r.bytes[13]? = some r.mb := rfl

variable {r}

/-! The decoder's answers, each under the checks before it (R67). -/

theorem decode_unknownOpcode (h : ∀ op : Opcode, [r.o0, r.o1, r.o2] ≠ op.ascii) :
    decode r.bytes = .error .unknownOpcode := by
  have hop : opcodeOfBytes r.o0 r.o1 r.o2 = none :=
    Option.eq_none_iff_forall_ne_some.2 fun op hop => h op (opcodeOfBytes_eq_some.1 hop).symm
  simp [decode, bytes, hop]

theorem decode_nonzeroPadding (hop : [r.o0, r.o1, r.o2] = op.ascii) (hp : r.pad ≠ 0x00) :
    decode r.bytes = .error .nonzeroPadding := by
  simp only [decode, bytes, opcodeOfBytes_eq_some.2 hop.symm, if_pos hp]

theorem decode_badAMode (hop : [r.o0, r.o1, r.o2] = op.ascii) (hp : r.pad = 0x00) (hma : ∀ m, r.ma ≠ modeByte m) :
    decode r.bytes = .error .badAMode := by
  simp [decode, bytes, opcodeOfBytes_eq_some.2 hop.symm, hp, modeOfByte_eq_none hma]

theorem decode_badBMode (hop : [r.o0, r.o1, r.o2] = op.ascii) (hp : r.pad = 0x00) (hma : r.ma = modeByte ma)
    (hmb : ∀ m, r.mb ≠ modeByte m) : decode r.bytes = .error .badBMode := by
  simp [decode, bytes, opcodeOfBytes_eq_some.2 hop.symm, hp, modeOfByte_eq_some.2 hma,
    modeOfByte_eq_none hmb]

theorem decode_ok (hop : [r.o0, r.o1, r.o2] = op.ascii) (hp : r.pad = 0x00) (hma : r.ma = modeByte ma)
    (hmb : r.mb = modeByte mb) : decode r.bytes = .ok (r.instr op ma mb) := by
  simp [decode, bytes, instr, opcodeOfBytes_eq_some.2 hop.symm, hp, modeOfByte_eq_some.2 hma,
    modeOfByte_eq_some.2 hmb]

/-- A record is accepted only when every check passes (R67). -/
theorem of_decode_eq_ok {i : Instr} (h : decode r.bytes = .ok i) : ∃ op ma mb, [r.o0, r.o1, r.o2] = op.ascii ∧
    r.pad = 0x00 ∧ r.ma = modeByte ma ∧ r.mb = modeByte mb ∧ i = r.instr op ma mb := by
  by_cases hop : ∀ op : Opcode, [r.o0, r.o1, r.o2] ≠ op.ascii
  · simp [decode_unknownOpcode hop] at h
  obtain ⟨op, hop⟩ := not_forall_not.1 hop
  rcases ne_or_eq r.pad 0x00 with hp | hp
  · simp [decode_nonzeroPadding hop hp] at h
  by_cases hma : ∀ m, r.ma ≠ modeByte m
  · simp [decode_badAMode hop hp hma] at h
  obtain ⟨ma, hma⟩ := not_forall_not.1 hma
  by_cases hmb : ∀ m, r.mb ≠ modeByte m
  · simp [decode_badBMode hop hp hma hmb] at h
  obtain ⟨mb, hmb⟩ := not_forall_not.1 hmb
  rw [decode_ok hop hp hma hmb, Except.ok.injEq] at h
  exact ⟨op, ma, mb, hop, hp, hma, hmb, h.symm⟩

theorem instr_fields (r : WireRecord) (op : Opcode) (ma mb : Mode) : (r.instr op ma mb).op = op ∧
    (r.instr op ma mb).a = wordOfBytes r.a0 r.a1 r.a2 r.a3 ∧ (r.instr op ma mb).b = wordOfBytes r.b0 r.b1 r.b2 r.b3 ∧
    (r.instr op ma mb).amode = ma ∧ (r.instr op ma mb).bmode = mb :=
  make_fields op _ _ ma mb

theorem encode_instr (hop : [r.o0, r.o1, r.o2] = op.ascii) (hp : r.pad = 0x00) (hma : r.ma = modeByte ma)
    (hmb : r.mb = modeByte mb) : encode (r.instr op ma mb) = r.bytes := by
  obtain ⟨iop, ia, ib, ima, imb⟩ := r.instr_fields op ma mb
  simp [encode, iop, ia, ib, ima, imb, le32_wordOfBytes, ← hop, ← hma, ← hmb, bytes, hp]

end WireRecord

theorem decode_badLength {x : List Byte} (h : x.length ≠ 14) : decode x = .error .badLength := by
  unfold decode
  split
  · exact absurd rfl h
  · rfl

/-! ### Decode and encode -/

theorem decode_encode (i : Instr) : decode (encode i) = .ok i := by
  obtain ⟨o0, o1, o2, hop, he⟩ := encode_bytes i
  rw [he]
  simp [decode, opcodeOfBytes_eq_some.2 hop, modeOfByte_modeByte, wordOfBytes_le32, make_of_fields]

/-- Decode and encode are inverse: the decoder accepts the encoded records and no others (R70). -/
theorem decode_eq_ok_iff {x : List Byte} {i : Instr} : decode x = .ok i ↔ encode i = x := by
  constructor
  · intro h
    by_cases hx : x.length = 14
    · obtain ⟨r, rfl⟩ := WireRecord.exists_bytes_eq hx
      obtain ⟨op, ma, mb, hop, hp, hma, hmb, rfl⟩ := WireRecord.of_decode_eq_ok h
      exact WireRecord.encode_instr hop hp hma hmb
    · rw [decode_badLength hx] at h
      cases h
  · rintro rfl
    exact decode_encode i

/-- Settles O3: the clauses are the decoder's answers on fourteen bytes. -/
theorem decodeReportsTheFirstFailingCheck : Obligations.DecodeReportsTheFirstFailingCheck := by
  refine fun x => ⟨decode_badLength, fun hx hop => ?_, fun op hx hop => ?_⟩ <;>
    obtain ⟨r, rfl⟩ := WireRecord.exists_bytes_eq hx <;> rw [WireRecord.bytes_take_three] at hop
  · exact WireRecord.decode_unknownOpcode hop
  simp only [WireRecord.bytes_pad, WireRecord.bytes_ma, WireRecord.bytes_mb, ne_eq, Option.some.injEq]
  refine ⟨WireRecord.decode_nonzeroPadding hop, WireRecord.decode_badAMode hop, fun ma hp hma =>
    ⟨WireRecord.decode_badBMode hop hp hma, fun mb hmb => ?_⟩⟩
  obtain ⟨iop, ia, ib, ima, imb⟩ := r.instr_fields op ma mb
  refine ⟨r.instr op ma mb, r.a0, r.a1, r.a2, r.a3, r.b0, r.b1, r.b2, r.b3,
    WireRecord.decode_ok hop hp hma hmb, iop, ima, imb, rfl, ?_, ?_⟩
  · rw [ia, toInt_wordOfBytes]
  · rw [ib, toInt_wordOfBytes]

/-! ### Legal records -/

/-- The rows of the opcode table are the mnemonics, each followed by a zero (R62, R63, R71). -/
theorem opcodeTable_row {row : WellFormed.OpcodeRow} (h : row ∈ WellFormed.opcodeTable) :
    ∃ c0 c1 c2, [c0, c1, c2] = row.op.ascii ∧ row = .ofPrefix row.op c0 c1 c2 0x00 := by
  simp only [WellFormed.opcodeTable, List.mem_cons, List.not_mem_nil, or_false] at h
  rcases h with rfl | rfl | rfl | rfl | rfl | rfl <;> exact ⟨_, _, _, rfl, rfl⟩

theorem WireRecord.of_admitted {r : WireRecord} (h : WellFormed.opcodeTable.any (·.admits r.bytes) = true) :
    (∃ op : Opcode, [r.o0, r.o1, r.o2] = op.ascii) ∧ r.pad = 0x00 := by
  obtain ⟨row, hmem, hadmits⟩ := List.any_eq_true.1 h
  obtain ⟨c0, c1, c2, hop, hrow⟩ := opcodeTable_row hmem
  rw [hrow, bytes, admits_ofPrefix _ _ _ _ _ _ _ _ _ rfl, decide_eq_true_eq] at hadmits
  obtain ⟨h0, h1, h2, hp⟩ := hadmits
  exact ⟨⟨row.op, by rw [h0, h1, h2, hop]⟩, hp⟩

theorem recordLegal_encode (i : Instr) : WellFormed.recordLegal (encode i) = true := by
  cases i with
  | mov ma a mb b => exact (Laws.EncodesLegally.mov ma a mb b).1
  | add ma a mb b => exact (Laws.EncodesLegally.add ma a mb b).1
  | jmp ma a mb b => exact (Laws.EncodesLegally.jmp ma a mb b).1
  | cmp ma a mb b => exact (Laws.EncodesLegally.cmp ma a mb b).1
  | slt ma a mb b => exact (Laws.EncodesLegally.slt ma a mb b).1
  | dat ma a mb b => exact (Laws.EncodesLegally.dat ma a mb b).1

theorem decode_of_recordLegal {x : List Byte} (h : WellFormed.recordLegal x = true) : ∃ i, decode x = .ok i := by
  simp only [WellFormed.recordLegal, Bool.and_eq_true, decide_eq_true_eq] at h
  obtain ⟨⟨⟨hx, hrow⟩, hma⟩, hmb⟩ := h
  obtain ⟨r, rfl⟩ := WireRecord.exists_bytes_eq hx
  obtain ⟨⟨op, hop⟩, hp⟩ := WireRecord.of_admitted hrow
  obtain ⟨ma, hma⟩ := modeByteLegal_iff.1 hma
  obtain ⟨mb, hmb⟩ := modeByteLegal_iff.1 hmb
  exact ⟨_, WireRecord.decode_ok hop hp hma hmb⟩

/-- Settles O4: an accepted record is an encoded one, and those are legal. -/
theorem decodesExactlyTheLegalRecords : Obligations.DecodesExactlyTheLegalRecords := by
  intro x
  constructor
  · rintro ⟨i, hi⟩
    rw [← decode_eq_ok_iff.1 hi]
    exact recordLegal_encode i
  · exact decode_of_recordLegal

/-! ### The layout of an encoded record -/

/-- The fields stand at bytes 4 and 8 (R61). -/
theorem encode_field_bytes (i : Instr) {n : Nat} (hn : n < 4) :
    (encode i)[4 + n]? = (le32 i.a)[n]? ∧ (encode i)[8 + n]? = (le32 i.b)[n]? := by
  obtain ⟨o0, o1, o2, -, he⟩ := encode_bytes i
  rw [he]
  interval_cases n <;> exact ⟨rfl, rfl⟩

/-- Settles O5. -/
theorem encodeLaysOutTheRecord : Obligations.EncodeLaysOutTheRecord := by
  intro i
  obtain ⟨o0, o1, o2, hop, he⟩ := encode_bytes i
  refine ⟨encode_length i, ?_, ?_, fun n hn => ?_, fun n hn => ?_, ?_, ?_⟩
  · rw [he, hop]; rfl
  · rw [he]; rfl
  · rw [(encode_field_bytes i hn).1, le32_getElem? i.a hn]
  · rw [(encode_field_bytes i hn).2, le32_getElem? i.b hn]
  · rw [he]; rfl
  · rw [he]; rfl

/-! ### Records and texts written out -/

/-- Settles O7: each of the records is the encoding of its instruction (R61 to R66). -/
theorem writtenOutRecordsDecode : Obligations.WrittenOutRecordsDecode := by
  refine ⟨decode_eq_ok_iff.2 ?_, decode_eq_ok_iff.2 ?_, decode_eq_ok_iff.2 ?_, ?_⟩ <;> decide

/-- Settles O51. -/
theorem writtenFormNamesTheRecord : Obligations.WrittenFormNamesTheRecord := by
  refine ⟨fun op => ?_, fun m => ?_, ?_, ?_, ?_⟩
  · cases op <;> decide
  · cases m <;> decide
  · decide
  · decide
  · decide

end Sys2Proof
end

section
/-! PROOFS. The codec of programs (R68 to R70): what the decoder answers on a buffer of records, and that a buffer
decodes exactly to the program it encodes. -/

namespace Sys2Proof

/-- Record `j` of a program buffer (R69). -/
def recordAt (x : List Byte) (j : Nat) : List Byte := (x.drop (14 * j)).take 14

@[simp] theorem recordAt_zero (x : List Byte) : recordAt x 0 = x.take 14 := rfl

@[simp] theorem recordAt_drop (x : List Byte) (j : Nat) : recordAt (x.drop 14) j = recordAt x (j + 1) := by
  rw [recordAt, recordAt, List.drop_drop, Nat.mul_succ, Nat.add_comm]

@[simp] theorem encodeProgram_nil : encodeProgram [] = [] := rfl

@[simp] theorem encodeProgram_cons (i : Instr) (p : List Instr) :
    encodeProgram (i :: p) = encode i ++ encodeProgram p := rfl

theorem encodeProgram_length (p : List Instr) : (encodeProgram p).length = 14 * p.length := by
  induction p with
  | nil => rfl
  | cons i p ih => rw [encodeProgram_cons, List.length_append, encode_length, ih, List.length_cons]; omega

/-! ### The records in order -/

variable {x : List Byte} {k n : Nat} {i : Instr} {p : List Instr} {r : DecodeReason}

theorem decodeRecords_zero (k : Nat) (x : List Byte) : decodeRecords k 0 x = .ok [] := rfl

theorem decodeRecords_of_error (h : decode (x.take 14) = .error r) :
    decodeRecords k (n + 1) x = .error ⟨r, some k⟩ := by
  simp [decodeRecords, h]

theorem decodeRecords_of_rest_error {e : DecodeError} (h : decode (x.take 14) = .ok i)
    (hrest : decodeRecords (k + 1) n (x.drop 14) = .error e) : decodeRecords k (n + 1) x = .error e := by
  simp [decodeRecords, h, hrest]

theorem decodeRecords_of_rest_ok (h : decode (x.take 14) = .ok i)
    (hrest : decodeRecords (k + 1) n (x.drop 14) = .ok p) : decodeRecords k (n + 1) x = .ok (i :: p) := by
  simp [decodeRecords, h, hrest]

/-- A buffer is accepted only when its first record and the rest are. -/
theorem of_decodeRecords_eq_ok (h : decodeRecords k (n + 1) x = .ok p) : ∃ i q, p = i :: q ∧
    decode (x.take 14) = .ok i ∧ decodeRecords (k + 1) n (x.drop 14) = .ok q := by
  cases hi : decode (x.take 14) with
  | error r => simp [decodeRecords_of_error hi] at h
  | ok i =>
    cases hq : decodeRecords (k + 1) n (x.drop 14) with
    | error e => simp [decodeRecords_of_rest_error hi hq] at h
    | ok q =>
      rw [decodeRecords_of_rest_ok hi hq, Except.ok.injEq] at h
      exact ⟨i, q, h.symm, rfl, rfl⟩

/-- The first record that fails is the one reported, counted from the record where decoding began (R69). -/
theorem decodeRecords_first_error {j : Nat} (hj : j < n) (hbefore : ∀ l, l < j → ∃ i, decode (recordAt x l) = .ok i)
    (hr : decode (recordAt x j) = .error r) : decodeRecords k n x = .error ⟨r, some (k + j)⟩ := by
  induction j generalizing n k x with
  | zero =>
    obtain ⟨n, rfl⟩ := Nat.exists_eq_add_one_of_ne_zero hj.ne'
    exact decodeRecords_of_error hr
  | succ j ih =>
    obtain ⟨n, rfl⟩ := Nat.exists_eq_add_one_of_ne_zero (Nat.ne_zero_of_lt hj)
    obtain ⟨i, hi⟩ : ∃ i, decode (x.take 14) = .ok i := hbefore 0 (Nat.succ_pos j)
    have hrest : decodeRecords (k + 1) n (x.drop 14) = .error ⟨r, some (k + 1 + j)⟩ :=
      ih (Nat.lt_of_succ_lt_succ hj) (fun l hl => recordAt_drop x l ▸ hbefore (l + 1) (Nat.succ_lt_succ hl))
        (recordAt_drop x j ▸ hr)
    rw [decodeRecords_of_rest_error hi hrest, Nat.add_assoc, Nat.add_comm 1]

/-- Records that all decode give the program of their instructions (R69). -/
theorem decodeRecords_of_records (h : ∀ j i, p[j]? = some i → decode (recordAt x j) = .ok i) :
    decodeRecords k p.length x = .ok p := by
  induction p generalizing k x with
  | nil => rfl
  | cons i p ih =>
    refine decodeRecords_of_rest_ok (h 0 i rfl) (ih fun j i' hi => ?_)
    rw [recordAt_drop]
    exact h (j + 1) i' hi

theorem decodeRecords_encodeProgram (k : Nat) (p : List Instr) :
    decodeRecords k p.length (encodeProgram p) = .ok p := by
  induction p generalizing k with
  | nil => rfl
  | cons i p ih =>
    rw [encodeProgram_cons]
    refine decodeRecords_of_rest_ok ?_ ?_
    · rw [List.take_left' (encode_length i), decode_encode]
    · rw [List.drop_left' (encode_length i), ih]

theorem encodeProgram_of_decodeRecords (hx : x.length = 14 * n) (h : decodeRecords k n x = .ok p) :
    encodeProgram p = x := by
  induction n generalizing k x p with
  | zero =>
    obtain rfl : x = [] := List.eq_nil_of_length_eq_zero hx
    rw [decodeRecords_zero, Except.ok.injEq] at h
    rw [← h, encodeProgram_nil]
  | succ n ih =>
    obtain ⟨i, q, rfl, hi, hq⟩ := of_decodeRecords_eq_ok h
    have hrest : encodeProgram q = x.drop 14 := ih (by rw [List.length_drop]; omega) hq
    rw [encodeProgram_cons, decode_eq_ok_iff.1 hi, hrest, List.take_append_drop]

/-! ### The buffer -/

theorem decodeProgram_badLength (h : x.length % 14 ≠ 0) : decodeProgram x = .error ⟨.badLength, none⟩ := by
  rw [decodeProgram, if_pos h]

theorem decodeProgram_of_length (h : x.length % 14 = 0) : decodeProgram x = decodeRecords 0 (x.length / 14) x := by
  rw [decodeProgram, if_neg (not_not.2 h)]

/-- Settles O6. -/
theorem decodeProgramReportsTheFirstFailingRecord : Obligations.DecodeProgramReportsTheFirstFailingRecord := by
  refine fun x => ⟨decodeProgram_badLength, fun hx => ⟨fun k r hk hbefore hr => ?_, fun p hp hall => ?_⟩⟩ <;>
    rw [decodeProgram_of_length hx]
  · rw [decodeRecords_first_error hk hbefore hr, Nat.zero_add]
  · rw [← hp, decodeRecords_of_records hall]

theorem decodeProgram_encodeProgram (p : List Instr) : decodeProgram (encodeProgram p) = .ok p := by
  have hlen := encodeProgram_length p
  rw [decodeProgram_of_length (by omega), show (encodeProgram p).length / 14 = p.length by omega,
    decodeRecords_encodeProgram]

/-- Settles O2: record by record, an accepted buffer is what its instructions encode to. -/
theorem acceptedProgramBufferIsItsEncoding : Obligations.AcceptedProgramBufferIsItsEncoding := by
  intro x p h
  by_cases hx : x.length % 14 = 0
  · rw [decodeProgram_of_length hx] at h
    exact encodeProgram_of_decodeRecords (by omega) h
  · rw [decodeProgram_badLength hx] at h
    cases h

/-- Settles O1. -/
theorem codecRoundTripsExactly : Obligations.CodecRoundTripsExactly :=
  ⟨decode_encode, decodeProgram_encodeProgram, fun _ _ => decode_eq_ok_iff.1⟩

end Sys2Proof
end

section
/-! PROOFS. The instructions that write the core (R79, R80): the core each leaves, cell by cell, and the frame of a
turn whose result is `Next` (R76, R94). -/

namespace Sys2Proof.Machine

variable {s : State} {k : Nat} {w : Warrior} {m m' : Memory} {ma mb : Mode} {a b : Word} {base : Nat}

/-! ### A turn that answers `Next` -/

/-- On natural numbers `norm` is the remainder (R15). -/
theorem Memory.norm_natCast (m : Memory) (n : Nat) : m.norm (n : Int) = n % m.size :=
  congrArg Int.toNat (Int.natCast_mod n m.size).symm

/-- A core operation of one instruction changes the contents of the core alone (R29, R76). -/
theorem WritesOnly.eq_with_cells {r : Operand} (h : WritesOnly m m' r) : m' = { m with cells := m'.cells } := by
  rcases h with rfl | ⟨i, -, -, c, rfl⟩ <;> rfl

/-- `Next` moves the program counter on by one cell and touches nothing else (R76, R94). -/
theorem WritesOnly.movesTo_next {r : Operand} (h : WritesOnly s.core m r) (k : Nat) (w : Warrior) :
    MovesTo s ((s.withCore m).applyResult k w .next) k w ((w.address + 1) % s.core.size) := by
  have haddress : m.norm ((w.address : Int) + 1) = (w.address + 1) % s.core.size := by
    rw [← h.size, ← Memory.norm_natCast, Nat.cast_succ]
  rw [MovesTo, applyResult_core, State.withCore_core, ← h.eq_with_cells, State.applyResult, State.withCore_core,
    haddress]
  rfl

/-- An instruction whose result is `Next` completes with the core it leaves and the program counter moved on. -/
theorem HasTurn.exec_next (h : HasTurn s k w) {i : Instr} (hi : (execute i s.core w.address).2 = .next) :
    ∃ t, Machine.exec i s = .next t ∧ MovesTo s t k w ((w.address + 1) % s.core.size) ∧
      t.core = (execute i s.core w.address).1 := by
  refine ⟨_, h.exec i, ?_, applyResult_core ..⟩
  rw [hi]
  exact (execute_writes h.size_pos i w.address).movesTo_next k w

/-! ### The core that MOV and ADD leave -/

/-- The B-field write as `make` of the other four fields (R47). -/
theorem withB_eq_make (i : Instr) (v : Word) : i.withB v = .make i.op i.a v i.amode i.bmode := by cases i <;> rfl

/-- MOV of a literal replaces the B-field of the target (R79, D4). -/
theorem read_movEffect_of_imm (hm : m.wf = true) {v : Word} (ha : resolve m base ma a = .imm v) (j : Nat) :
    (movEffect ma a mb b m base).1.read j =
      if resolve m base mb b = .cell j then (m.read j).withB v else m.read j := by
  simp only [movEffect, ha, read_writeB hm]

/-- MOV of a cell replaces the whole target (R79). -/
theorem read_movEffect_of_cell (hm : m.wf = true) {i : Nat} (ha : resolve m base ma a = .cell i) (j : Nat) :
    (movEffect ma a mb b m base).1.read j = if resolve m base mb b = .cell j then m.read i else m.read j := by
  simp only [movEffect, ha, read_writeCell hm]

/-- ADD replaces the B-field of the target by its sum with the value of operand A (R80). -/
theorem read_addEffect (hm : m.wf = true) (j : Nat) : (addEffect ma a mb b m base).1.read j =
    if resolve m base mb b = .cell j then
      (m.read j).withB (add32 (valueRead m (resolve m base ma a)) (m.read j).b)
    else m.read j := by
  rw [addEffect, read_writeB hm]
  split
  · next hb => rw [hb]; rfl
  · rfl

/-! ### The obligations -/

/-- Settles O13: MOV answers `Next`, and the core it leaves goes by what operand A resolves to. -/
theorem movCopiesToTheTarget : Obligations.MovCopiesToTheTarget := by
  intro s k w ma a mb b hk hwf
  obtain ⟨t, hexec, hmoves, hcore⟩ :=
    hk.exec_next (i := .mov ma a mb b) (movEffect_spec hk.size_pos ma a mb b w.address).2
  refine ⟨rfl, t, hexec, hmoves, fun j => ?_⟩
  rw [hcore, execute]
  cases ha : resolve s.core w.address ma a with
  | imm v => rw [read_movEffect_of_imm hwf ha, withB_eq_make]
  | cell i => rw [read_movEffect_of_cell hwf ha]

/-- Settles O14: ADD answers `Next`, and the core it leaves differs in the target's B-field alone. -/
theorem addWritesTheSumIntoTheBField : Obligations.AddWritesTheSumIntoTheBField := by
  intro s k w ma a mb b hk hwf
  obtain ⟨t, hexec, hmoves, hcore⟩ := hk.exec_next (i := .add ma a mb b) rfl
  refine ⟨rfl, t, hexec, hmoves, fun j => ?_⟩
  rw [hcore, execute, read_addEffect hwf, withB_eq_make, add32, wrap32]

end Sys2Proof.Machine
end

section
/-! PROOFS. The instructions that act on the program counter (R81 to R85): the ALU's comparisons, and the frame of a
turn that leaves the core as it was (R76, R94). -/

namespace Sys2Proof.Machine

variable {s : State} {k : Nat} {w : Warrior}

/-! ### The ALU's comparisons -/

/-- Equality of the integers is that of the patterns (R81). -/
theorem eq32_iff {x y : Word} : eq32 x y = true ↔ x = y := by
  rw [eq32, decide_eq_true_iff, BitVec.toInt_inj]

/-- Less-than is that of the signed integers (R82). -/
theorem slt32_iff {x y : Word} : slt32 x y = true ↔ x.toInt < y.toInt := decide_eq_true_iff

/-- Settles O11. -/
theorem comparisonsAreOfSignedValues : Obligations.ComparisonsAreOfSignedValues :=
  fun _ _ => ⟨decide_eq_true_iff, eq32_iff, slt32_iff⟩

/-! ### A turn that leaves the core as it was -/

/-- An instruction that writes no cell completes, and all it does is what its result does (R76, R94). -/
theorem HasTurn.exec_of_core_kept (h : HasTurn s k w) {i : Instr} {r : Result}
    (hi : execute i s.core w.address = (s.core, r)) : Machine.exec i s = .next (s.applyResult k w r) := by
  rw [h.exec, hi]

/-- A conditional skip moves the program counter on by two cells or by one, wrapping (R94). -/
theorem applyResult_skip_or_next (s : State) (k : Nat) (w : Warrior) (p : Prop) [Decidable p] :
    s.applyResult k w (if p then .skip else .next) =
      s.setWarrior k { w with
        address := if p then (w.address + 2) % s.core.size else (w.address + 1) % s.core.size } := by
  split
  · rw [State.applyResult, ← Memory.norm_natCast, Nat.cast_add, Nat.cast_ofNat]
  · rw [State.applyResult, ← Memory.norm_natCast, Nat.cast_succ]

/-- The cell JMP goes to: through a pointer under `@`, and the view of operand A otherwise, a literal being an offset
(R83, D5). -/
theorem jumpTarget_eq (m : Memory) (base : Nat) (ma : Mode) (a : Word) : jumpTarget m base ma a =
    if ma = .indirect then m.view base (m.readB (m.view base a.toInt)).toInt else m.view base a.toInt := by
  cases ma <;> rfl

/-! ### The obligations -/

/-- Settles O15: the two cells are the view of operand A and the view of the B-field found there. -/
theorem jmpGoesToTheResolvedCell : Obligations.JmpGoesToTheResolvedCell := by
  intro s k w ma a mb b hk
  have hm := hk.size_pos
  refine ⟨rfl, s.core.view w.address a.toInt,
    s.core.view w.address (s.core.readB (s.core.view w.address a.toInt)).toInt,
    Memory.view_lt hm _ _, Memory.view_dvd_sub hm _ _, Memory.view_lt hm _ _, Memory.view_dvd_sub hm _ _, ?_⟩
  rw [hk.exec_of_core_kept (i := .jmp ma a mb b) rfl, jumpTarget_eq]
  rfl

/-- Settles O16: CMP answers `Skip` or `Next` by the equality of the patterns. -/
theorem cmpSkipsWhenEqual : Obligations.CmpSkipsWhenEqual := by
  intro s k w ma a mb b hk
  refine ⟨rfl, ?_⟩
  rw [hk.exec_of_core_kept (i := .cmp ma a mb b) rfl, applyResult_skip_or_next]
  simp only [eq32_iff, State.setWarrior]

/-- Settles O17: SLT answers `Skip` or `Next` by the signed comparison. -/
theorem sltSkipsWhenLess : Obligations.SltSkipsWhenLess := by
  intro s k w ma a mb b hk
  refine ⟨rfl, ?_⟩
  rw [hk.exec_of_core_kept (i := .slt ma a mb b) rfl, applyResult_skip_or_next]
  simp only [slt32_iff, State.setWarrior]

end Sys2Proof.Machine
end

section
/-! PROOFS. The instruction that ends a warrior (R86): what its death does to the number of the living, who is left,
and the three ways the Run takes it (R91, R97, R98). -/

namespace Sys2Proof.Machine

variable {s : State} {k : Nat} {w : Warrior}

/-! ### The living after a death -/

/-- The record of warrior `k` once it has died: its program counter and name stay (R91). -/
def State.bury (s : State) (k : Nat) (w : Warrior) : State := s.setWarrior k { w with alive := false }

/-- Elimination is the death of the warrior and then the termination check (R91). -/
theorem eliminate_eq (s : State) (k : Nat) (w : Warrior) :
    s.eliminate k w = (s.bury k w).checkTermination k := rfl

/-- The death of the executing warrior takes one from the living. -/
theorem HasTurn.liveCount_bury (hk : HasTurn s k w) : (s.bury k w).liveCount + 1 = s.liveCount := by
  obtain ⟨hlen, hw⟩ := List.getElem?_eq_some_iff.1 hk.record
  have hpos : s.liveCount ≠ 0 := liveCount_ne_zero (List.mem_of_getElem? hk.record) hk.alive
  have hset : (s.bury k w).liveCount = s.liveCount - 1 := by
    simp [State.liveCount, State.bury, List.countP_set hlen, hw, hk.alive]
  omega

/-- As long as one warrior lives, the survivor is one that does (R95). -/
theorem survivor_alive (h : s.liveCount ≠ 0) : ∃ v, s.warriors[s.survivor]? = some v ∧ v.alive = true := by
  have hlt : s.survivor < s.warriors.length :=
    List.findIdx_lt_length_of_exists (List.countP_pos_iff.1 (Nat.pos_of_ne_zero h))
  exact ⟨s.warriors[s.survivor], List.getElem?_eq_getElem hlt, List.findIdx_getElem (w := hlt)⟩

/-- A living warrior of the table after a death is another one, and was there before it with the same record. -/
theorem HasTurn.other_of_alive_bury (hk : HasTurn s k w) {j : Nat} {v : Warrior}
    (hv : (s.bury k w).warriors[j]? = some v) (ha : v.alive = true) : j ≠ k ∧ s.warriors[j]? = some v := by
  rw [State.bury, State.setWarrior_warriors] at hv
  by_cases hj : k = j
  · subst hj
    rw [List.getElem?_set_self hk.lt_length] at hv
    cases hv
    cases ha
  · exact ⟨Ne.symm hj, by rwa [List.getElem?_set_ne hj] at hv⟩

/-! ### The termination check, case by case -/

theorem checkTermination_of_one (h : s.liveCount = 1) (k : Nat) :
    s.checkTermination k = s.finishRun (.winner s.survivor) := if_pos h

theorem checkTermination_of_none (h : s.liveCount = 0) (k : Nat) :
    s.checkTermination k = { s with faulted := true }.finishRun (.error (.fatalDrawError k)) := by
  rw [State.checkTermination, if_neg (by omega), if_pos h]

theorem checkTermination_of_more (h : 2 ≤ s.liveCount) (k : Nat) : s.checkTermination k = s := by
  rw [State.checkTermination, if_neg (by omega), if_neg (by omega)]

/-! ### The obligation -/

/-- DAT completes whatever its operands are: it is the elimination of the executing warrior (R86). -/
theorem HasTurn.exec_dat (hk : HasTurn s k w) (ma : Mode) (a : Word) (mb : Mode) (b : Word) :
    Machine.exec (.dat ma a mb b) s = .next (s.eliminate k w) :=
  hk.exec_of_core_kept (i := .dat ma a mb b) rfl

/-- Settles O18: the executing warrior is one of those counted, so the termination check sees one fewer. -/
theorem datEliminatesTheExecutingWarrior : Obligations.DatEliminatesTheExecutingWarrior := by
  intro s k w ma a mb b hk
  have hcount := hk.liveCount_bury
  rw [hk.exec_dat, eliminate_eq]
  refine ⟨rfl, fun hthree => ?_, fun htwo => ?_, fun hone => ?_, by omega⟩
  · rw [checkTermination_of_more (by omega)]
    rfl
  · have hleft : (s.bury k w).liveCount = 1 := by omega
    obtain ⟨v, hv, hva⟩ := survivor_alive (s := s.bury k w) (by omega)
    obtain ⟨hne, hvs⟩ := hk.other_of_alive_bury hv hva
    refine ⟨(s.bury k w).survivor, v, hne, hvs, hva, ?_⟩
    rw [checkTermination_of_one hleft]
    rfl
  · rw [checkTermination_of_none (by omega)]
    rfl

end Sys2Proof.Machine
end

section
/-! PROOFS. The step of an engine between Runs and in a turn (R93, R95, R96, R101, R103, R112), and the model's placed
word (log entry 6). -/

namespace Sys2Proof.Machine

variable {s : State}

/-! ### The scheduler -/

/-- Settles O21. -/
theorem stepRunsTheFetchedInstruction : Obligations.StepRunsTheFetchedInstruction :=
  fun _ _ _ hk => ⟨hk.step, fun _ _ _ hi => hi ▸ hk.step⟩

/-- Settles O22: the four branches of the scheduler's move. -/
theorem positionMovesOnRoundRobin : Obligations.PositionMovesOnRoundRobin := by
  refine fun s => ⟨advance_of_run_none, fun n k hr => ⟨advance_of_lt hr, fun hk hn => ?_, fun hk hn => ?_⟩⟩
  · exact advance_of_tick_end hr (Nat.not_lt.2 hk) hn
  · exact advance_of_run_end hr (Nat.not_lt.2 hk) (Nat.not_lt.2 hn)

theorem turn_of_dead {r : RunPos} {w : Warrior} (hr : s.run = some r) (hw : s.warriors[r.k]? = some w)
    (ha : w.alive = false) : s.turn = none := by
  simp [State.turn, hr, hw, ha]

/-- Settles O23: at a dead warrior nobody has the turn, so the step passes over. -/
theorem deadWarriorTakesNoTurn : Obligations.DeadWarriorTakesNoTurn :=
  fun _ _ _ _ hr hw ha => step_skip hr (turn_of_dead hr hw ha)

/-! ### The host's transactions -/

/-- Settles O24: an idle engine serves, and there is nothing to serve. -/
theorem idleEngineKeepsItsState : Obligations.IdleEngineKeepsItsState := by
  intro s hr hq
  rw [step_idle hr, State.serve, hq]

/-- Settles O36: the acceptance of a `Run` by an engine that has not faulted, split at the budget of one tick. -/
theorem runStartsAtTheFirstWarrior : Obligations.RunStartsAtTheFirstWarrior := by
  intro s n rest hr hq hf
  have hstep : step s = .next ({ s with requests := rest }.startRun n) := step_request hr hq
  rw [hstep]
  rcases startRun_cases { s with requests := rest } n with ⟨hf', -⟩ | ⟨-, hn, h⟩ | ⟨-, hn, h⟩
  · cases hf.symm.trans hf'
  · refine ⟨fun _ => ?_, fun hn' => by omega⟩
    rw [h, State.finishRun, hr]
  · exact ⟨fun hn' => by omega, fun _ => ⟨n.toNat, Int.toNat_of_nonneg (by omega), by rw [h]⟩⟩

/-- What a faulted block answers (R101): the refusal to `Load` and `Run`, and to the others what any engine answers. -/
def State.faultedAnswer (s : State) : Request → Response
  | .load .. => .error .engineFaulted
  | .run _ => .error .engineFaulted
  | .encode i => .encoded (Sys2Proof.encode i)
  | .decode x => decodeResponse x
  | .encodeProgram p => .encoded (Sys2Proof.encodeProgram p)
  | .decodeProgram x => decodeProgramResponse x
  | .observe => .observed s.observe

/-- A faulted block answers every transaction and changes nothing (R101). -/
theorem perform_of_faulted (hf : s.faulted = true) (q : Request) : s.perform q = s.respond (s.faultedAnswer q) := by
  cases q with
  | load name address p => simp [State.perform, State.faultedAnswer, State.load, State.loadError, hf]
  | run n => simp [State.perform, State.faultedAnswer, State.startRun, hf]
  | encode i => rfl
  | decode x => rfl
  | encodeProgram p => rfl
  | decodeProgram x => rfl
  | observe => rfl

/-- Settles O37: the faulted block's answer, kind of request by kind of request. -/
theorem faultedEngineRefusesLoadAndRun : Obligations.FaultedEngineRefusesLoadAndRun := by
  intro s q rest hr hq hf
  refine ⟨s.faultedAnswer q, ?_, ?_⟩
  · rw [step_request hr hq, perform_of_faulted (s := { s with requests := rest }) hf]
    cases q <;> rfl
  · exact ⟨fun _ _ _ h => h ▸ rfl, fun _ h => h ▸ rfl, fun _ h => h ▸ rfl, fun _ h => h ▸ rfl,
      fun _ _ h hx => h ▸ decodeResponse_of_ok hx, fun _ _ h hx => h ▸ decodeResponse_of_error hx,
      fun _ _ h hx => h ▸ decodeProgramResponse_of_ok hx, fun _ _ h hx => h ▸ decodeProgramResponse_of_error hx,
      fun h => h ▸ ⟨s.observe, rfl, rfl, rfl, hf, by simp [State.observe], fun _ => observe_core s⟩⟩

/-! ### The placed word -/

theorem withFetchWord_of_decode {nbits w : Nat} {i : Instr} (h : decodeTableWord nbits w = some i) :
    s.withFetchWord nbits w = s.placeForFetch i := by
  rw [State.withFetchWord, h]

/-- From reset the placed instruction stands at cell 0, where the one warrior registered for it has the turn. -/
theorem hasTurn_reset_placeForFetch (i : Instr) :
    HasTurn (State.reset.placeForFetch i) 0 { name := "", address := 0, alive := true } :=
  ⟨rfl, rfl, rfl, by show 0 < Config.defaultCoreSize; decide⟩

theorem read_reset_placeForFetch (i : Instr) : (State.reset.placeForFetch i).core.read 0 = i := by
  obtain ⟨hreset, -⟩ := invariantHoldsAtReset
  exact (Memory.read_write hreset.core 0 0 i).trans (if_pos rfl)

/-- Settles O48: the placed instruction is what the turn's step fetches. -/
theorem placedWordIsRunFromReset : Obligations.PlacedWordIsRunFromReset := by
  intro w i hw
  rw [withFetchWord_of_decode hw]
  have hk := hasTurn_reset_placeForFetch i
  refine ⟨hk, ?_, hk.step_next⟩
  rw [hk.step, read_reset_placeForFetch]

end Sys2Proof.Machine
end

section
/-! PROOFS. A Run in progress (R97 to R99, R104, R105): what a step does to the host's side, how the Run ends, and that
no number of steps stops. -/

namespace Sys2Proof.Machine

variable {s t : State} {k : Nat} {w : Warrior} {r : RunPos}

/-! ### The host's side -/

@[simp] theorem advance_requests (s : State) : s.advance.requests = s.requests := by rw [advance_frame]

@[simp] theorem eliminate_requests (s : State) (k : Nat) (w : Warrior) :
    (s.eliminate k w).requests = s.requests := by
  obtain ⟨-, -, -, -, h⟩ := eliminate_frame s k w; exact h

/-- During a Run a step takes no transaction (R105). -/
theorem StepEffect.requests_of_run (h : StepEffect s t) (hr : s.run ≠ none) : t.requests = s.requests := by
  cases h with
  | idle => rfl
  | answer hr' => exact absurd hr' hr
  | load hr' => exact absurd hr' hr
  | startRun hr' => exact absurd hr' hr
  | skip => rw [advance_requests]
  | eliminate => rw [advance_requests, eliminate_requests]
  | move => rw [advance_requests, State.setWarrior_requests, State.withCore_requests]

/-- Settles O25: `STARTED` is set by serving a `Run` alone, which needs an engine with no Run in progress. -/
theorem runIsNotInterrupted : Obligations.RunIsNotInterrupted := by
  intro s t hr ht
  have he := stepEffect_of_step ht
  exact ⟨he.requests_of_run hr, he.started_cases.resolve_right fun ⟨_, hr', _⟩ => hr hr'⟩

/-! ### How a Run ends -/

/-- The Run has returned the one living warrior as the winner (R97). -/
def WonBySurvivor (t : State) : Prop :=
  ∃ j w, t.response = some (.winner j) ∧ t.warriors[j]? = some w ∧ w.alive = true ∧
    ∀ (i : Nat) (w' : Warrior), t.warriors[i]? = some w' → w'.alive = true → i = j

/-- The Run has raised the fatal draw, by the elimination of warrior `k` (R98). -/
def DrawnBy (t : State) (k : Nat) : Prop :=
  t.response = some (.error (.fatalDrawError k)) ∧ t.faulted = true ∧ ∀ w ∈ t.warriors, w.alive = false

/-- When one warrior lives, every living one is the survivor (R95). -/
theorem eq_survivor_of_alive (h : s.liveCount = 1) {i : Nat} (hw : s.warriors[i]? = some w) (ha : w.alive = true) :
    i = s.survivor := by
  by_contra hne
  obtain ⟨hlt, hi⟩ := List.getElem?_eq_some_iff.1 hw
  obtain ⟨v, hv, hva⟩ := survivor_alive (s := s) (by omega)
  have hburied : (s.bury i w).liveCount = 0 := by
    simpa [State.liveCount, State.bury, List.countP_set hlt, hi, ha, Nat.sub_eq_zero_iff_le] using h.le
  have hstill : (s.bury i w).warriors[s.survivor]? = some v := (List.getElem?_set_ne hne).trans hv
  exact liveCount_ne_zero (List.mem_of_getElem? hstill) hva hburied

/-- Everything elimination can do to the Run (R97, R98). -/
theorem eliminate_run_cases (s : State) (k : Nat) (w : Warrior) :
    ((s.eliminate k w).run = s.run ∧ (s.eliminate k w).faulted = s.faulted) ∨
      ((s.eliminate k w).run = none ∧
        ((WonBySurvivor (s.eliminate k w) ∧ (s.eliminate k w).faulted = s.faulted) ∨
          DrawnBy (s.eliminate k w) k)) := by
  rw [eliminate_eq]
  rcases checkTermination_cases (s.bury k w) k with ⟨hc, h⟩ | ⟨hc, h⟩ | ⟨-, h⟩ <;> rw [h]
  · obtain ⟨v, hv, ha⟩ := survivor_alive (s := s.bury k w) (by omega)
    exact .inr ⟨rfl, .inl ⟨⟨_, v, rfl, hv, ha, fun i w' => eq_survivor_of_alive hc⟩, rfl⟩⟩
  · exact .inr ⟨rfl, .inr ⟨rfl, rfl, (liveCount_eq_zero_iff _).1 hc⟩⟩
  · exact .inl ⟨rfl, rfl⟩

/-- The scheduler's move ends a Run only after its last tick (R99). -/
theorem advance_ends (hr : s.run = some r) (h : s.advance.run = none) :
    s.advance.response = some .noWinner ∧ r.ticksLeft ≤ 1 ∧ s.warriors.length ≤ r.k + 1 := by
  rcases advance_cases s with ⟨hr', -⟩ | ⟨r', hr', hmove⟩
  · cases hr.symm.trans hr'
  · obtain rfl : r' = r := Option.some.inj (hr'.symm.trans hr)
    rcases hmove with ⟨-, ha⟩ | ⟨-, -, ha⟩ | ⟨hk, hn, ha⟩ <;> rw [ha] at h ⊢
    · cases h
    · cases h
    · exact ⟨rfl, hn, hk⟩

/-- The warrior that has the turn is the one at the position of the Run. -/
theorem HasTurn.k_eq (hk : HasTurn s k w) (hr : s.run = some r) : r.k = k := by
  simpa [hr] using hk.position

/-- Settles O26: a turn ends the Run by an elimination, the scheduler's move after the last tick. -/
theorem runEndsInThreeWays : Obligations.RunEndsInThreeWays := by
  intro s t n k hr ht hend
  cases stepEffect_of_step ht with
  | idle hr' => cases hr.symm.trans hr'
  | answer hr' => cases hr.symm.trans hr'
  | load hr' => cases hr.symm.trans hr'
  | startRun hr' => cases hr.symm.trans hr'
  | skip =>
    obtain ⟨hresp, hn, hk⟩ := advance_ends hr hend
    exact .inr (.inr ⟨hresp, hn, by rwa [advance_warriors], advance_faulted s⟩)
  | @eliminate k' w hk =>
    obtain rfl : k = k' := hk.k_eq hr
    rcases eliminate_run_cases s k w with ⟨hrun, hf⟩ | ⟨hrun, ⟨⟨j, v, hwin⟩, hf⟩ | hdraw⟩
    · obtain ⟨hresp, hn, hlen⟩ := advance_ends (hrun.trans hr) hend
      exact .inr (.inr ⟨hresp, hn, by rwa [advance_warriors], (advance_faulted _).trans hf⟩)
    · rw [advance_of_run_none hrun]
      obtain ⟨hresp, hv, ha, huniq⟩ := hwin
      exact .inl ⟨j, v, hresp, hv, ha, huniq, hf⟩
    · rw [advance_of_run_none hrun]
      exact .inr (.inl hdraw)
  | move =>
    obtain ⟨hresp, hn, hk⟩ := advance_ends (r := ⟨n, k⟩) (by exact hr) hend
    exact .inr (.inr ⟨hresp, hn, by rwa [advance_warriors], advance_faulted _⟩)

/-- A Run that a step ends has returned something. -/
theorem response_of_run_end (hr : s.run = some r) (ht : step s = .next t) (hend : t.run = none) :
    t.response ≠ none := by
  rcases runEndsInThreeWays s t r.ticksLeft r.k hr ht hend with ⟨j, w, h, -⟩ | ⟨h, -⟩ | ⟨h, -⟩ <;> simp [h]

/-! ### No number of steps stops -/

/-- From a well-formed state every number of steps answers with a next state. -/
theorem safeFor_of_inv (h : Inv s) (n : Nat) : SafeFor n s := by
  induction n generalizing s with
  | zero => exact ⟨s, run_zero s⟩
  | succ n ih =>
    obtain ⟨t, ht⟩ := noStepStopsFromAWellFormedState s h
    rw [SafeFor, run_succ_of_step ht]
    exact ih (everyStepKeepsTheInvariant s t h ht)

/-- Settles O42: the invariant does not look at the requests. -/
theorem noRunStopsFromAWellFormedState : Obligations.NoRunStopsFromAWellFormedState :=
  fun _ _ n h => safeFor_of_inv (inv_withRequests h _) n

end Sys2Proof.Machine
end

section
/-! PROOFS. The small steps against the loops of R95 (R103, R104): the turns a Run has left, what the loops still have
to do from its position, and that each step takes one turn of both. -/

namespace Sys2Proof.Machine

variable {s t u : State} {k : Nat} {w : Warrior} {r : RunPos}

/-! ### The turns a Run has left -/

/-- The turns and skips from the position to the end of the last tick, in a table of `size` warriors; an empty table
takes one skip a tick (log entry 1). -/
def RunPos.turnsLeft (r : RunPos) (size : Nat) : Nat := r.ticksLeft * max 1 size - r.k

/-- Under the invariant the position is one of those that a tick passes (R103, log entry 1). -/
theorem Inv.position_lt (h : Inv s) (hr : s.run = some r) : r.k < max 1 s.warriors.length := by
  obtain ⟨-, hk | ⟨-, hk⟩, -⟩ := h.running r hr <;> omega

theorem turnsLeft_pos (h : Inv s) (hr : s.run = some r) : 1 ≤ r.turnsLeft s.warriors.length := by
  obtain ⟨hticks, -⟩ := h.running r hr
  exact Nat.sub_pos_of_lt ((h.position_lt hr).trans_le (Nat.le_mul_of_pos_left _ hticks))

/-- The scheduler's move leaves fewer turns (R103). -/
theorem turnsLeft_advance {r' : RunPos} (hr : s.run = some r) (hticks : 1 ≤ r.ticksLeft)
    (hk : r.k < max 1 s.warriors.length) (hr' : s.advance.run = some r') :
    r'.turnsLeft s.warriors.length < r.turnsLeft s.warriors.length := by
  rcases advance_cases s with ⟨hnone, -⟩ | ⟨p, hp, hmove⟩
  · cases hr.symm.trans hnone
  · obtain rfl : p = r := Option.some.inj (hp.symm.trans hr)
    have htick := Nat.le_mul_of_pos_left (max 1 s.warriors.length) hticks
    have hrest := Nat.sub_one_mul p.ticksLeft (max 1 s.warriors.length)
    rcases hmove with ⟨hlt, ha⟩ | ⟨-, hn, ha⟩ | ⟨-, -, ha⟩ <;> rw [ha] at hr' <;> cases hr'
    · exact Nat.sub_lt_sub_left (hk.trans_le htick) (Nat.lt_succ_self p.k)
    · simp only [RunPos.turnsLeft]
      omega

/-! ### What the loops still have to do -/

/-- What the outer loop of R95 does after a tick whose inner loop came to the outcome: the `n` ticks after it, or
nothing once the Run has returned. A table of no warriors cannot return from a tick (log entry 1). -/
def ticksAfter (n size : Nat) : Host.Outcome State Fault Refusal → Host.Outcome State Fault Refusal
  | .next t => if size = 0 ∨ t.run.isSome then t.ticks n else .next t
  | .fault f => .fault f
  | .refused r => .refused r

/-- The loops of R95 entered again at the position of the Run: the rest of the tick, then the ticks after it. -/
def State.resume (s : State) : Host.Outcome State Fault Refusal :=
  match s.run with
  | none => .next s
  | some r => ticksAfter (r.ticksLeft - 1) s.warriors.length
      (s.restOfTick r.ticksLeft (List.range' r.k (s.warriors.length - r.k)))

theorem resume_of_run_none (h : s.run = none) : s.resume = .next s := by
  rw [State.resume, h]

theorem resume_of_run (hr : s.run = some r) : s.resume = ticksAfter (r.ticksLeft - 1) s.warriors.length
    (s.restOfTick r.ticksLeft (List.range' r.k (s.warriors.length - r.k))) := by
  rw [State.resume, hr]

theorem ticks_succ (s : State) (n : Nat) : s.ticks (n + 1) =
    ticksAfter n s.warriors.length (s.restOfTick (n + 1) (List.range s.warriors.length)) := by
  rw [State.ticks]
  cases s.restOfTick (n + 1) (List.range s.warriors.length) with
  | next t => simp only [ticksAfter, Bool.or_eq_true, List.isEmpty_iff_length_eq_zero]
  | fault f => rfl
  | refused r => rfl

/-- A Run that returns inside a tick ends the loops (R97, R98). -/
theorem ticksAfter_of_run_none {size : Nat} (n : Nat) (hsize : size ≠ 0) (ht : t.run = none) :
    ticksAfter n size (.next t) = .next t := by
  simp [ticksAfter, hsize, ht]

/-- A Run still in progress at the end of a tick goes on to the ticks after it (R95). -/
theorem ticksAfter_of_run (n size : Nat) (ht : t.run = some r) : ticksAfter n size (.next t) = t.ticks n := by
  simp [ticksAfter, ht]

/-- The inner loop places the Run itself, so it does not look where it stood. -/
theorem restOfTick_cons_withRun (s : State) (p : Option RunPos) (n k : Nat) (ks : List Nat) :
    { s with run := p }.restOfTick n (k :: ks) = s.restOfTick n (k :: ks) := rfl

/-- Nor does the outer loop (R95). -/
theorem ticks_withRun (s : State) (p : Option RunPos) (n : Nat) : { s with run := p }.ticks n = s.ticks n := by
  induction n generalizing s with
  | zero => rfl
  | succ n ih =>
    rw [ticks_succ, ticks_succ]
    cases hlen : s.warriors.length with
    | zero => simp only [List.range_zero, State.restOfTick, ticksAfter, true_or, if_true, ih]
    | succ m => simp only [List.range_succ_eq_map, restOfTick_cons_withRun]

/-- A tick is entered at its first position (R95). -/
theorem resume_first (s : State) (n : Nat) : { s with run := some ⟨n + 1, 0⟩ }.resume = s.ticks (n + 1) := by
  rw [← ticks_withRun s (some ⟨n + 1, 0⟩), ticks_succ, resume_of_run rfl]
  simp only [Nat.add_sub_cancel, Nat.sub_zero, List.range_eq_range']

/-- After the scheduler's move the loops do what they do once the turn at the position is over. -/
theorem resume_advance (hr : s.run = some r) (hticks : 1 ≤ r.ticksLeft) : s.advance.resume =
    ticksAfter (r.ticksLeft - 1) s.warriors.length
      (s.restOfTick r.ticksLeft (List.range' (r.k + 1) (s.warriors.length - (r.k + 1)))) := by
  by_cases hk : r.k + 1 < s.warriors.length
  · obtain ⟨m, hm⟩ := Nat.exists_eq_add_of_lt hk
    rw [advance_of_lt hr hk, resume_of_run rfl]
    simp only [show s.warriors.length - (r.k + 1) = m + 1 by omega, List.range'_succ, restOfTick_cons_withRun]
  · rw [show s.warriors.length - (r.k + 1) = 0 by omega, List.range'_zero, State.restOfTick, ticksAfter_of_run _ _ hr]
    by_cases hn : 1 < r.ticksLeft
    · obtain ⟨m, hm⟩ := Nat.exists_eq_add_of_lt hn
      rw [advance_of_tick_end hr hk hn, show r.ticksLeft - 1 = m + 1 by omega, resume_first]
    · rw [advance_of_run_end hr hk hn, show r.ticksLeft - 1 = 0 by omega, resume_of_run_none rfl, State.ticks]

/-! ### A step and the loops -/

/-- At the position of the Run the inner loop places it where it stands. -/
theorem restOfTick_at_skip (hr : s.run = some r) (ht : s.turn = none) (ks : List Nat) :
    s.restOfTick r.ticksLeft (r.k :: ks) = s.restOfTick r.ticksLeft ks := by
  have hself : { s with run := some ⟨r.ticksLeft, r.k⟩ } = s := by rw [← hr]
  have hslot : s.slot = .skip := by simp [State.slot, hr, ht]
  rw [State.restOfTick]
  simp only [hself, hslot]

/-- In a turn the inner loop runs the fetched instruction, and goes on unless that ended the Run. -/
theorem HasTurn.restOfTick (hk : HasTurn s k w) (hr : s.run = some r)
    (hu : Machine.exec (s.core.read w.address) s = .next u) (ks : List Nat) :
    s.restOfTick r.ticksLeft (r.k :: ks) = if u.run.isSome then u.restOfTick r.ticksLeft ks else .next u := by
  have hself : { s with run := some ⟨r.ticksLeft, r.k⟩ } = s := by rw [← hr]
  rw [State.restOfTick]
  simp only [hself, hk.slot, hu]

/-- What an instruction does to the Run and the table's length (R24, R97, R98). -/
theorem exec_run_cases {i : Instr} (hu : exec i s = .next u) :
    u.warriors.length = s.warriors.length ∧ (u.run = s.run ∨ u.run = none) := by
  obtain ⟨k, w, -, ⟨-, rfl⟩ | ⟨-, m, -, -, a, -, rfl⟩⟩ := exec_next_cases hu
  · exact ⟨by simp, (eliminate_run_cases s k w).imp (·.1) (·.1)⟩
  · exact ⟨by simp, .inl rfl⟩

/-- The positions from one inside the table to its end. -/
theorem range'_position {k size : Nat} (hk : k < size) :
    List.range' k (size - k) = k :: List.range' (k + 1) (size - (k + 1)) := by
  rw [show size - k = size - (k + 1) + 1 by omega, List.range'_succ]

/-- During a Run a step keeps what the loops come to (R103). -/
theorem resume_of_step (h : Inv s) (hr : s.run = some r) (ht : step s = .next t) : s.resume = t.resume := by
  obtain ⟨hticks, hinside, -⟩ := h.running r hr
  rw [resume_of_run hr]
  rcases step_next_cases ht with ⟨hr', -⟩ | ⟨-, -, hturn, rfl⟩ | ⟨k, w, u, hk, hu, rfl⟩
  · cases hr.symm.trans hr'
  · rw [resume_advance hr hticks]
    rcases hinside with hlt | ⟨hws, -⟩
    · rw [range'_position hlt, restOfTick_at_skip hr hturn]
    · simp only [hws, List.length_nil, Nat.zero_sub, List.range'_zero]
  · obtain rfl := hk.k_eq hr
    obtain ⟨hlen, hrun⟩ := exec_run_cases hu
    rw [range'_position hk.lt_length, hk.restOfTick hr hu]
    rcases hrun with hrun | hrun
    · rw [resume_advance (hrun.trans hr) hticks, hlen, if_pos (by simp [hrun, hr])]
    · rw [advance_of_run_none hrun, resume_of_run_none hrun, if_neg (by simp [hrun]),
        ticksAfter_of_run_none _ (Nat.ne_zero_of_lt hk.lt_length) hrun]

/-- During a Run a step leaves fewer turns, unless it ends the Run (R104). -/
theorem turnsLeft_of_step {r' : RunPos} (h : Inv s) (hr : s.run = some r) (ht : step s = .next t)
    (hr' : t.run = some r') : r'.turnsLeft t.warriors.length < r.turnsLeft s.warriors.length := by
  obtain ⟨hticks, -⟩ := h.running r hr
  have hk := h.position_lt hr
  rcases step_next_cases ht with ⟨hnone, -⟩ | ⟨-, -, -, rfl⟩ | ⟨k, w, u, -, hu, rfl⟩
  · cases hr.symm.trans hnone
  · rw [advance_warriors]
    exact turnsLeft_advance hr hticks hk hr'
  · obtain ⟨hlen, hrun | hrun⟩ := exec_run_cases hu
    · rw [advance_warriors, ← hlen]
      exact turnsLeft_advance (hrun.trans hr) hticks (hlen ▸ hk) hr'
    · rw [advance_of_run_none hrun] at hr'
      cases hrun.symm.trans hr'

/-- A Run in progress returns within the turns it has left, with a response, in the state that the loops come to. -/
theorem returns_as_the_loops (h : Inv s) (hr : s.run = some r) : ∃ steps u,
    steps ≤ r.turnsLeft s.warriors.length ∧ Sys2Proof.core.run steps s = .next u ∧
      u.run = none ∧ u.response ≠ none ∧ s.resume = .next u := by
  induction hn : r.turnsLeft s.warriors.length using Nat.strong_induction_on generalizing s r with
  | _ n ih =>
    obtain ⟨t, ht⟩ := noStepStopsFromAWellFormedState s h
    have hresume := resume_of_step h hr ht
    cases hr' : t.run with
    | none =>
      exact ⟨1, t, hn ▸ turnsLeft_pos h hr, run_succ_of_step ht 0, hr', response_of_run_end hr ht hr',
        hresume.trans (resume_of_run_none hr')⟩
    | some r' =>
      have hless := turnsLeft_of_step h hr ht hr'
      obtain ⟨steps, u, hle, hrun, hend, hresp, hu⟩ :=
        ih _ (hn ▸ hless) (everyStepKeepsTheInvariant s t h ht) hr' rfl
      exact ⟨steps + 1, u, by omega, (run_succ_of_step ht steps).trans hrun, hend, hresp, hresume.trans hu⟩

/-- Settles O44: the turns left are at most a table's length for each tick. -/
theorem runReturnsWithinItsBudget : Obligations.RunReturnsWithinItsBudget := by
  intro s r h hr
  obtain ⟨steps, u, hle, hrun, hend, hresp, -⟩ := returns_as_the_loops h hr
  exact ⟨steps, u, hle.trans (Nat.sub_le ..), hrun, hend, hresp⟩

/-! ### The transaction of R95 -/

/-- The loops of `Run` are those that its acceptance enters at the first position; a faulted block and a budget of no
tick are answered without them (R95, R99, R101). -/
theorem runWhole_eq_resume (s : State) (n : Int) (hr : s.run = none) : s.runWhole n = (s.startRun n).resume := by
  rcases startRun_cases s n with ⟨hf, h⟩ | ⟨hf, hn, h⟩ | ⟨hf, hn, h⟩ <;> rw [h, State.runWhole]
  · rw [if_pos hf, resume_of_run_none (by exact hr)]
  · rw [if_neg (by simp [hf]), Int.toNat_of_nonpos hn, State.ticks]
    rfl
  · obtain ⟨m, hm⟩ := Nat.exists_eq_add_of_lt (Int.pos_iff_toNat_pos.1 hn)
    rw [if_neg (by simp [hf]), hm, Nat.zero_add]
    exact (resume_first { s with started := true, response := none } m).symm

/-- Settles O43: the acceptance of the Run leaves the loops where `Run` has them start, and the steps after it keep
what they come to. -/
theorem smallStepsAgreeWithTheRunLoops : Obligations.SmallStepsAgreeWithTheRunLoops := by
  intro s n rest h hr hq
  have hstep : step s = .next ({ s with requests := rest }.startRun n) := step_request hr hq
  rw [runWhole_eq_resume { s with requests := rest } n hr]
  cases hrun : ({ s with requests := rest }.startRun n).run with
  | none => exact ⟨1, _, resume_of_run_none hrun, hrun, run_succ_of_step hstep 0⟩
  | some r =>
    obtain ⟨steps, u, -, hsteps, hend, -, hu⟩ :=
      returns_as_the_loops (inv_startRun (inv_withRequests h rest) hr n) hrun
    exact ⟨steps + 1, u, hu, hend, (run_succ_of_step hstep steps).trans hsteps⟩

end Sys2Proof.Machine
end

section
/-! PROOFS. `Load` (R115 to R118, R120): the error of its first check that fails, and what it leaves when every check
passes. -/

namespace Sys2Proof.Machine

variable {s : State} {name : String} {address : Int} {p : List Instr} {rest : List Request}

/-! ### The checks, in their order (R115) -/

theorem loadError_of_faulted (hf : s.faulted = true) : s.loadError address p = some .engineFaulted :=
  if_pos hf

theorem loadError_of_started (hf : s.faulted = false) (hs : s.started = true) :
    s.loadError address p = some .loadAfterRun := by
  simp [State.loadError, hf, hs]

/-- With both status bits clear, the placement checks alone decide (R116). -/
theorem loadError_of_clear (hf : s.faulted = false) (hs : s.started = false) : s.loadError address p =
    if ¬ p.length < s.maxCodeSize then some (.placementError .programTooLong)
    else if ¬ 0 ≤ address then some (.placementError .negativeAddress)
    else if ¬ address + p.length < s.core.size then some (.placementError .pastEndOfCore)
    else none := by
  simp [State.loadError, hf, hs]

/-! ### The step that serves a `Load` -/

/-- A check that fails gives its error and nothing else (R89, R115). -/
theorem step_load_of_error {e : Signal} (hr : s.run = none) (hq : s.requests = .load name address p :: rest)
    (he : s.loadError address p = some e) :
    step s = .next { s with requests := rest, response := some (.error e) } := by
  rw [step_request hr hq, State.perform]
  rcases load_cases { s with requests := rest } name address p with ⟨e', he', h⟩ | ⟨hn, -⟩
  · cases he.symm.trans he'
    rw [h, State.respond]
  · cases he.symm.trans hn

/-- With every check passed, the program is written and its warrior registered (R117, R118). -/
theorem step_load_of_passed (hr : s.run = none) (hq : s.requests = .load name address p :: rest)
    (hn : s.loadError address p = none) :
    step s = .next ({ s with requests := rest }.register name address.toNat p) := by
  rw [step_request hr hq, State.perform]
  rcases load_cases { s with requests := rest } name address p with ⟨e, he, -⟩ | ⟨-, h⟩
  · cases hn.symm.trans he
  · rw [h]

/-- Settles O34: in each clause, the checks before the failing one are passed. -/
theorem loadChecksInOrder : Obligations.LoadChecksInOrder := by
  intro s name address p rest hr hq
  refine ⟨fun hf => ?_, fun hf hs => ?_, fun hf hs hlen => ?_, fun hf hs hlen haddr => ?_,
    fun hf hs hlen haddr hend => ?_⟩ <;> apply step_load_of_error hr hq
  · exact loadError_of_faulted hf
  · exact loadError_of_started hf hs
  · rw [loadError_of_clear hf hs, if_pos (Nat.not_lt.2 hlen)]
  · rw [loadError_of_clear hf hs, if_neg (not_not.2 hlen), if_pos (Int.not_le.2 haddr)]
  · rw [loadError_of_clear hf hs, if_neg (not_not.2 hlen), if_neg (not_not.2 haddr), if_pos (Int.not_lt.2 hend)]

/-! ### The program in the core (R117) -/

variable {m : Memory} {i : Nat}

/-- Of the core, a program written changes the cells alone. -/
theorem Memory.writeProgram_eq_with_cells (m : Memory) (i : Nat) (p : List Instr) :
    m.writeProgram i p = { m with cells := (m.writeProgram i p).cells } := by
  rw [Memory.mk.injEq]
  exact ⟨writeProgram_size m i p, writeProgram_initAMode m i p, writeProgram_initBMode m i p, rfl⟩

/-- Cell `i + j` of a program's place holds its instruction `j`. -/
theorem Memory.read_writeProgram_inside (h : m.wf = true) (hp : i + p.length ≤ m.size) {j : Nat} {c : Instr}
    (hc : p[j]? = some c) : (m.writeProgram i p).read (i + j) = c := by
  rw [Memory.read_writeProgram h hp, if_pos (Nat.le_add_right i j), Nat.add_sub_cancel_left, hc, Option.getD_some]

/-- Settles O35: the checks pass, and the registered state is read off cell by cell. -/
theorem loadPlacesAndRegisters : Obligations.LoadPlacesAndRegisters := by
  intro s name address p rest hwf hr hq hf hs hlen hend
  have hpassed : s.loadError address p = none := by
    rw [loadError_of_clear hf hs, if_neg (not_not.2 hlen), if_neg (by omega), if_neg (by omega)]
  have hplace : address + p.length ≤ s.core.size := hend.le
  refine ⟨_, step_load_of_passed hr hq hpassed, ?_, fun j c => ?_, fun i => ?_⟩
  · rw [State.register, ← Memory.writeProgram_eq_with_cells]
    rfl
  · exact Memory.read_writeProgram_inside hwf hplace
  · exact Memory.read_writeProgram_outside hwf hplace

end Sys2Proof.Machine
end

section
/-! PROOFS. Where `exec` stops (R93, log entry 19): with no turn in progress, and with a program counter outside the
core. -/

namespace Sys2Proof.Machine

variable {s : State}

theorem takeTurn_of_no_turn (ht : s.turn = none) (f : Memory → Nat → Memory × Result) :
    s.takeTurn f = .fault .noTurn := by
  rw [State.takeTurn, ht]

/-- Whatever the effect `f`, it is not applied at a base that is no cell of the core. -/
theorem takeTurn_of_no_cell {k : Nat} {w : Warrior} (ht : s.turn = some (k, w)) (hw : s.core.size ≤ w.address)
    (f : Memory → Nat → Memory × Result) : s.takeTurn f = .fault (.noSuchCell w.address) := by
  rw [State.takeTurn, ht]
  exact if_neg (Nat.not_lt.2 hw)

/-- Settles O19: `exec` takes the turn with the instruction's effect, and the turn stops before any effect. -/
theorem execOutsideATurnFaults : Obligations.ExecOutsideATurnFaults := by
  intro i s
  rw [exec_eq_takeTurn]
  exact ⟨fun ht => takeTurn_of_no_turn ht _, fun k w ht hw => takeTurn_of_no_cell ht hw _⟩

end Sys2Proof.Machine
end
